-- ==== Sys2Proof/Config.lean ====
section
/-! DEFINITION. The implementation parameters of the TinyASS core (spec 00_scope.md R6, 92_eei_decisions.md D1, D3, D4,
D5): what one build of the core fixes and no instruction changes. A `Config` is plain data; `State.cfg` holds the one the
core was built with, so a statement about every state is a statement about every configuration. -/

namespace Sys2Proof

/-- `SHIFT_AMOUNT` (R6, R127, D3): how SHL and SHR turn the amount register into a shift count. -/
inductive ShiftAmount where
  /-- The spec's default: the amount, read as unsigned, modulo `XLEN`. -/
  | modXlen
  /-- D3's alternative: an unsigned amount of `XLEN` or more shifts every bit out. -/
  | saturate
  deriving DecidableEq, Repr

/-- `SHR_KIND` (R6, R127, D4): what SHR shifts in at the left. -/
inductive ShrKind where
  /-- The spec's default: copies of the sign bit. -/
  | arithmetic
  /-- D4's alternative: zeros. -/
  | logical
  deriving DecidableEq, Repr

/-- `DIV_ROUNDING` (R6, R116, D5): how DIV rounds, which fixes REM's sign too. -/
inductive DivRounding where
  /-- The spec's default: toward zero; the remainder has the sign of the dividend. -/
  | truncate
  /-- D5's alternative: toward minus infinity; the remainder has the sign of the divisor. -/
  | floor
  deriving DecidableEq, Repr

/-- The parameters of R6 that the source leaves open (93_implementation_defined.md U1 to U4). -/
structure Config where
  /-- `XLEN`: width in bits of a register, of a memory cell and of LOAD's literal. -/
  xlen : Nat
  /-- `SHIFT_AMOUNT`. -/
  shiftAmount : ShiftAmount
  /-- `SHR_KIND`. -/
  shrKind : ShrKind
  /-- `DIV_ROUNDING`. -/
  divRounding : DivRounding
  deriving DecidableEq, Repr

/-- R6's column of defaults: 64 bits, amounts modulo 64, arithmetic SHR, truncating DIV. -/
def Config.standard : Config :=
  { xlen := 64, shiftAmount := .modXlen, shrKind := .arithmetic, divRounding := .truncate }

/-- DEDUCED (log entry 3): a width this spec can be built at. The program counter is an `XLEN`-bit signed number (D13)
and takes every jump target 0 to 255, so `XLEN` is at least 9. -/
abbrev Config.WellFormed (c : Config) : Prop := 9 ≤ c.xlen

/-- `NCELL` (R6): the number of memory cells. -/
def Config.ncell : Nat := 256

/-- What a memory cell that nothing has written reads as (R33, R40). -/
def Config.unwritten : Int := 0

end Sys2Proof
end

