-- ==== Sys2Proof/Word.lean ====
section
/-! DEFINITION. The values, addresses and register names of the core (spec R6, R9, R20, R25). What a register
or a cell holds is an integer ("signed integer slots"), the signed reading of an `XLEN`-bit two's-complement pattern (R9, R20,
R25); its range is a check, kept by every step. -/

namespace Sys2Proof

/-- A memory address or a jump target: `AW` = 8 bits (R6). -/
abbrev Addr := BitVec 8

/-- The four general registers `R0` to `R3` (R20). No other register name can be written. -/
inductive Reg where
  | r0 | r1 | r2 | r3
  deriving DecidableEq, Repr

/-- `MIN` of R9: `-2^(XLEN-1)`. -/
def minValue (xlen : Nat) : Int := -(2 : Int) ^ (xlen - 1)

/-- `MAX` of R9: `2^(XLEN-1) - 1`. -/
def maxValue (xlen : Nat) : Int := (2 : Int) ^ (xlen - 1) - 1

/-- The integer has an `XLEN`-bit two's-complement pattern (R9). -/
abbrev InRange (xlen : Nat) (v : Int) : Prop := minValue xlen ≤ v ∧ v ≤ maxValue xlen

end Sys2Proof
end

