-- ==== Sys2Proof/Machine/Bits.lean ====
section
/-! DEFINITION. Patterns and integers (spec 00_scope.md R8, R9): the two's-complement pattern of a value, the signed and the
unsigned reading of it, `wrap`, and slices of a word. -/

namespace Sys2Proof

/-- The `xlen`-bit pattern of an integer: `n mod 2^XLEN` (R9). -/
def pattern (xlen : Nat) (x : Int) : BitVec xlen := BitVec.ofInt xlen x

/-- `signed(v)` of R9: the two's-complement reading. -/
def signed {xlen : Nat} (v : BitVec xlen) : Int := v.toInt

/-- `unsigned(v)` of R9, for the pattern of a value. -/
def unsigned (xlen : Nat) (x : Int) : Nat := (pattern xlen x).toNat

/-- `wrap(n)` of R9, as a value: the integer in `[MIN, MAX]` congruent to `n` modulo `2^XLEN`. -/
def wrap (xlen : Nat) (n : Int) : Int := signed (pattern xlen n)

/-- `w[lo+width-1 : lo]` of R8, read as an unsigned number. -/
def slice (w lo width : Nat) : Nat := w / 2 ^ lo % 2 ^ width

end Sys2Proof
end

