-- ==== Sys2Proof/Machine/Alu.lean ====
section
/-! DEFINITION. The arithmetic, logic and shift functions of the ALU (spec 41_arithmetic.md R110 to R116, 42_logic_shift.md
R120 to R127), each a function of the parameters and of the source values. Comparisons stand in Flags.lean. -/

namespace Sys2Proof.Machine

/-! ### Arithmetic: exact, then wrapped (R115) -/

def aluAdd (c : Config) (x y : Int) : Int := wrap c.xlen (x + y)

def aluSub (c : Config) (x y : Int) : Int := wrap c.xlen (x - y)

def aluMul (c : Config) (x y : Int) : Int := wrap c.xlen (x * y)

/-- The exact quotient of a division by a nonzero divisor, rounded as `DIV_ROUNDING` says (R116, D5). -/
def quotient (c : Config) (x y : Int) : Int :=
  match c.divRounding with
  | .truncate => Int.tdiv x y
  | .floor => Int.fdiv x y

/-- DIV (R113): the one overflow, `MIN / -1`, wraps to `MIN`. -/
def aluDiv (c : Config) (x y : Int) : Int := wrap c.xlen (quotient c x y)

/-- REM (R114): `src1 - q × src2`, with the quotient before it is wrapped. -/
def aluRem (c : Config) (x y : Int) : Int := x - quotient c x y * y

/-! ### Logic: bit by bit over the patterns (R126) -/

def aluAnd (c : Config) (x y : Int) : Int := signed (pattern c.xlen x &&& pattern c.xlen y)

def aluOr (c : Config) (x y : Int) : Int := signed (pattern c.xlen x ||| pattern c.xlen y)

def aluXor (c : Config) (x y : Int) : Int := signed (pattern c.xlen x ^^^ pattern c.xlen y)

def aluNot (c : Config) (x : Int) : Int := signed (~~~ pattern c.xlen x)

/-! ### Shifts (R127) -/

/-- The shift count in the amount register (R127 (1), D3). Under `saturate` every amount of `XLEN` or more counts as
`XLEN`. -/
def shiftCount (c : Config) (y : Int) : Nat :=
  match c.shiftAmount with
  | .modXlen => unsigned c.xlen y % c.xlen
  | .saturate => min (unsigned c.xlen y) c.xlen

/-- SHL (R123): zeros enter at the right, high bits are lost. -/
def aluShl (c : Config) (x y : Int) : Int := signed (pattern c.xlen x <<< shiftCount c y)

/-- SHR (R124): sign bits or zeros enter at the left, as `SHR_KIND` says (D4). -/
def aluShr (c : Config) (x y : Int) : Int :=
  match c.shrKind with
  | .arithmetic => signed ((pattern c.xlen x).sshiftRight (shiftCount c y))
  | .logical => signed (pattern c.xlen x >>> shiftCount c y)

end Sys2Proof.Machine
end

