-- ==== Sys2Proof/Syntax.lean ====
section
/-! DEFINITION. The instructions: one constructor per row of spec/opcode_table.json, each with its own typed operands, as
30_encoding.md R80 recommends ("a closed enumeration of opcode variants, each carrying its own typed operand payload").
A register outside R0..R3 or an address outside 0..255 cannot be written (R79, D20). -/

namespace Sys2Proof

/-- A record of R63, typed. Operands stand in the order of the text: destination first. -/
inductive Instr where
  /-- `LOAD Rd value` (R100). -/
  | load (d : Reg) (v : Int)
  /-- `STORE Rs addr` (R101). -/
  | store (s : Reg) (a : Addr)
  /-- `ADD Rd Rs1 Rs2` (R110). -/
  | add (d s1 s2 : Reg)
  /-- `SUB Rd Rs1 Rs2` (R111). -/
  | sub (d s1 s2 : Reg)
  /-- `MUL Rd Rs1 Rs2` (R112). -/
  | mul (d s1 s2 : Reg)
  /-- `DIV Rd Rs1 Rs2` (R113). -/
  | div (d s1 s2 : Reg)
  /-- `REM Rd Rs1 Rs2` (R114). -/
  | rem (d s1 s2 : Reg)
  /-- `AND Rd Rs1 Rs2` (R120). -/
  | and (d s1 s2 : Reg)
  /-- `OR Rd Rs1 Rs2` (R121). -/
  | or (d s1 s2 : Reg)
  /-- `XOR Rd Rs1 Rs2` (R122). -/
  | xor (d s1 s2 : Reg)
  /-- `SHL Rd Rs1 Rs2` (R123). -/
  | shl (d s1 s2 : Reg)
  /-- `SHR Rd Rs1 Rs2` (R124). -/
  | shr (d s1 s2 : Reg)
  /-- `NOT Rd Rs` (R125). -/
  | not (d s : Reg)
  /-- `GT Rd Rs1 Rs2` (R130). -/
  | gt (d s1 s2 : Reg)
  /-- `LT Rd Rs1 Rs2` (R131). -/
  | lt (d s1 s2 : Reg)
  /-- `GTE Rd Rs1 Rs2` (R132). -/
  | gte (d s1 s2 : Reg)
  /-- `LTE Rd Rs1 Rs2` (R133). -/
  | lte (d s1 s2 : Reg)
  /-- `EQ Rd Rs1 Rs2` (R134). -/
  | eq (d s1 s2 : Reg)
  /-- `NEQ Rd Rs1 Rs2` (R135). -/
  | neq (d s1 s2 : Reg)
  /-- `JMP addr` (R140). -/
  | jmp (a : Addr)
  /-- `JZ Rs addr` (R141). -/
  | jz (s : Reg) (a : Addr)
  /-- `JNZ Rs addr` (R142). -/
  | jnz (s : Reg) (a : Addr)
  /-- `PRINT Rs` (R150), the record `[-1, reg]`. -/
  | print (s : Reg)
  /-- `PRINT MEM addr` (R151), the record `[addr]`. -/
  | printMem (a : Addr)
  /-- `HALT` (R152). -/
  | halt
  deriving DecidableEq, Repr

end Sys2Proof
end

