-- ==== Sys2Proof/Record.lean ====
section
/-! DEFINITION. The types of the record level and of the decoders' answers (spec 30_encoding.md R63, R74, R77, R79, R83):
opcode tags, untyped records, operand kinds, word formats, decode errors. The functions over them stand in Decode.lean and
Machine/Text.lean. -/

namespace Sys2Proof

/-- The opcode tag: one of the 24 mnemonics of the fixed vocabulary (R63, R77). Both forms of PRINT carry one tag. -/
inductive Mnemonic where
  | load | store | add | sub | mul | div | rem | and | or | xor | shl | shr | not
  | gt | lt | gte | lte | eq | neq | jmp | jz | jnz | print | halt
  deriving DecidableEq, Repr

/-- The instruction record of R77: "an opcode tag plus an ordered sequence of integer operands". -/
structure Record where
  tag : Mnemonic
  operands : List Int
  deriving DecidableEq, Repr

/-- What an operand position of a record holds (R77, R79, R80). -/
inductive OperandKind where
  /-- A register index, 0 to 3. -/
  | reg
  /-- A memory address or jump target, 0 to 255. -/
  | addr
  /-- LOAD's literal, in `[MIN, MAX]`. -/
  | value
  /-- The constant `-1` in front of PRINT's register form. -/
  | sentinel
  deriving DecidableEq, Repr

/-- The word formats of R83. -/
inductive Format where
  | ri | ra | rrr | rr | a | pr | pm | n
  deriving DecidableEq, Repr

/-- The fields of a packed word, read as unsigned numbers (R81). -/
structure Fields where
  op : Nat
  a : Nat
  b : Nat
  c : Nat
  m : Nat
  z : Nat
  imm : Nat
  deriving DecidableEq, Repr

/-- The decode errors of R74: kinds only, not the texts of the messages (D24). -/
inductive DecodeError where
  /-- The line is empty, all white space, or only a comment (R60). -/
  | emptyInstruction
  /-- `UnknownInstruction(tok)`: token 0 is not in the vocabulary (R62). -/
  | unknownInstruction (tok : List Char)
  /-- `UnknownInstruction(op)`, the same error at the word level: `op` is 24 or more (R84). -/
  | unknownOpcode (op : Nat)
  /-- Wrong token count for the mnemonic (R64, R72). -/
  | arityError (k : Mnemonic)
  /-- A register token fails R68. -/
  | invalidRegister
  /-- An address token fails R70, or an address field is above 255 (R84). -/
  | invalidAddress
  /-- LOAD's literal token fails R71. -/
  | invalidValue
  /-- PRINT's first operand is neither `MEM` nor starts with `R` (R72). -/
  | invalidPrintOperand
  /-- Word level only: a field the format does not use is nonzero (R84). -/
  | reservedEncoding
  deriving DecidableEq, Repr

/-- A decoder's answer. `unsettled` is the spec's "neither accepts nor rejects" (R71, U7): a LOAD literal with a leading
`+` is given no meaning. -/
inductive Decoded (α : Type) where
  | ok (x : α)
  | error (e : DecodeError)
  | unsettled
  deriving DecidableEq, Repr

end Sys2Proof
end

