-- ==== Sys2Proof/Machine/State.lean ====
section
/-! DEFINITION. The whole state of the core (spec 10_state.md R20 to R34): four registers, the program counter, 256 memory
cells, the loaded program, the run status and the output trace; with them the parameters the core was built with (R6), which
no instruction changes. Plain data. The reasons a step can stop stand here too. -/

namespace Sys2Proof.Machine

/-- The register file: four slots, none hard-wired (R20). -/
structure RegFile where
  r0 : Int
  r1 : Int
  r2 : Int
  r3 : Int
  deriving DecidableEq, Repr

/-- A memory cell that holds something else than an unwritten cell: its address and its value. A cell is a whole
`XLEN`-bit integer, not a byte (R25, 90_conflicts.md C1). -/
abbrev Cell := Nat × Int

/-- The data memory (R25, R47): the cells that differ from an unwritten one, at strictly rising addresses. -/
abbrev Memory := List Cell

/-- The one canonical form: addresses below `NCELL`, strictly rising, and no cell listed at the value it has unwritten. -/
def Memory.wf : Memory → Bool
  | [] => true
  | (a, v) :: m => decide (a < Config.ncell) && decide (v ≠ Config.unwritten) && m.all (fun c => decide (a < c.1)) && wf m

/-- The causes of a runtime fault: division or remainder by zero is the only one (R160). -/
inductive Cause where
  | divideByZero
  deriving DecidableEq, Repr

/-- The events of the two sinks (R28). -/
inductive Event where
  /-- `ShowReg(n, v)` on the display sink. -/
  | showReg (n : Reg) (v : Int)
  /-- `ShowMem(a, v)` on the display sink. -/
  | showMem (a : Addr) (v : Int)
  /-- `Fault(cause, p)` on the fault sink, tagged with the program counter. -/
  | fault (c : Cause) (p : Int)
  deriving DecidableEq, Repr

/-- The outcome the engine reports for one instruction (R29). -/
inductive StepResult where
  /-- `Continue`. -/
  | cont
  /-- `Taken`. -/
  | taken
  /-- `Halted`. -/
  | halted
  /-- `Faulted(cause)`. -/
  | faulted (c : Cause)
  deriving DecidableEq, Repr

/-- The run status (R29). -/
inductive RunStatus where
  | running
  | halted
  | faulted (c : Cause)
  | ended
  deriving DecidableEq, Repr

/-- Everything the spec gives the core. -/
structure State where
  /-- The parameters of R6: fixed when the core is built. -/
  cfg : Config
  /-- `R0` to `R3` (R20). -/
  regs : RegFile
  /-- `pc`, "index into program, signed" (R22). -/
  pc : Int
  /-- `memory` (R25). -/
  mem : Memory
  /-- `program`, the loaded instruction records; `PROGLEN` is its length (R26). -/
  program : List Instr
  /-- The run status (R29). -/
  status : RunStatus
  /-- The output trace, oldest event first (R28). -/
  trace : List Event
  deriving DecidableEq, Repr

/-- `PROGLEN` (R6, R26). -/
abbrev State.proglen (s : State) : Nat := s.program.length

/-- A core just created, with the parameters `c`: "all state zeroed", no program, running, no event (R33, R180). -/
def State.create (c : Config) : State :=
  { cfg := c, regs := { r0 := 0, r1 := 0, r2 := 0, r3 := 0 }, pc := 0, mem := [], program := [], status := .running,
    trace := [] }

/-- The machine right after reset, at the parameters' defaults of R6. -/
def State.reset : State := State.create Config.standard

/-- Why the machine does not go on. -/
inductive Fault where
  /-- The run is over: the status is `Halted`, `Faulted` or `Ended` and "no step is possible" (R30). Raised by `step`, and
  by `execute`, `executeRecord` and `immediate` (R184, U17: the model has no move for the host after a stop). Safe: nothing
  is claimed past the end. -/
  | notRunning (st : RunStatus)
  deriving DecidableEq, Repr

/-- Why the model gives no next state. -/
inductive Refusal where
  /-- The instruction has no meaning yet. Raised by an arm of `exec` only; no arm raises it now. Safe. -/
  | notModelled (mnemonic : String)
  /-- The record is not well-formed (R79, D20, U5: "unconstructible in the model, or refused"). Raised by LOAD with a
  literal outside `[MIN, MAX]`, by `executeRecord` and by `loadProgram`. Safe: no decoder delivers such a record. -/
  | illFormedRecord
  /-- The program has `2^(XLEN-1)` instructions or more (R6, D13: `PROGLEN < 2^(XLEN-1)`). Raised by `loadProgram`. Safe. -/
  | programTooLong
  /-- A program is attached already, or execution has begun: a program is attached "once, before execution" (R184).
  Raised by `loadProgram`. Safe. -/
  | notFresh
  /-- A LOAD literal with a leading `+`: the spec gives it no meaning (R71, U7). Raised by `loadText` and `immediate`.
  Safe. -/
  | openLiteral
  /-- The host asks for what R184 does not give it: a line at a core that has a program attached, or, there, the execution of
  another instruction than `program[pc]` (log entry 22). Raised by `execute`, `executeRecord` and `immediate`. Safe. -/
  | notHostsMove
  deriving DecidableEq, Repr

end Sys2Proof.Machine
end

