-- ==== Sys2Proof/Machine/Ops.lean ====
section
/-! DEFINITION. The named operations every meaning is made of: registers, memory cells, fetch, the output trace, the
program-counter logic after an instruction (spec 10_state.md R23, R30) and the runtime fault (60_exceptions.md R160). -/

namespace Sys2Proof.Machine

/-! ### Registers (R20) -/

/-- `x[r]` of R10. -/
def RegFile.get (f : RegFile) : Reg → Int
  | .r0 => f.r0
  | .r1 => f.r1
  | .r2 => f.r2
  | .r3 => f.r3

/-- `x[r] <- v` of R10. -/
def RegFile.set (f : RegFile) (r : Reg) (v : Int) : RegFile :=
  match r with
  | .r0 => { f with r0 := v }
  | .r1 => { f with r1 := v }
  | .r2 => { f with r2 := v }
  | .r3 => { f with r3 := v }

/-- A register of the state. -/
def State.getReg (s : State) (r : Reg) : Int := s.regs.get r

/-- Write a register; nothing else changes. -/
def State.setReg (s : State) (r : Reg) (v : Int) : State := { s with regs := s.regs.set r v }

/-! ### Memory cells (R40, R41) -/

/-- The content of the cell at `a`. -/
def Memory.read : Memory → Nat → Int
  | [], _ => Config.unwritten
  | (b, w) :: m, a => if a = b then w else Memory.read m a

/-- Replace the content of the cell at `a`, keeping the canonical form. -/
def Memory.write : Memory → Nat → Int → Memory
  | [], a, v => if v = Config.unwritten then [] else [(a, v)]
  | (b, w) :: m, a, v =>
    if a < b then (if v = Config.unwritten then (b, w) :: m else (a, v) :: (b, w) :: m)
    else if a = b then (if v = Config.unwritten then m else (a, v) :: m)
    else (b, w) :: Memory.write m a v

/-- `MemRead(addr, 1)` (R40). -/
def State.readMem (s : State) (a : Addr) : Int := s.mem.read a.toNat

/-- `MemWrite(addr, 1, v)` (R41). -/
def State.writeMem (s : State) (a : Addr) (v : Int) : State := { s with mem := s.mem.write a.toNat v }

/-! ### Program counter, fetch, trace -/

/-- `pc <- t`. -/
def State.setPc (s : State) (t : Int) : State := { s with pc := t }

/-- `status <- st`. -/
def State.setStatus (s : State) (st : RunStatus) : State := { s with status := st }

/-- `program[pc]`, none when `pc < 0` or `pc ≥ PROGLEN` (R30). -/
def State.fetch (s : State) : Option Instr :=
  if s.pc < 0 then none else s.program[s.pc.toNat]?

/-- `emit E`: append an event to the output trace (R10, R28). -/
def State.emit (s : State) (e : Event) : State := { s with trace := s.trace ++ [e] }

/-- What the cycle does once an instruction's own rule has been applied (R23, R30): `Continue` advances the program counter
by one; `Taken` leaves it as the jump set it; `Halted` and `Faulted` leave it and change the status. In immediate mode, where
R22's bound, derived from the cycle of R30, does not hold, the program counter goes on growing past 255 and past `MAX`: it
never wraps (DESIGN CHOICE, log entry 23). -/
def State.retire (s : State) : StepResult → State
  | .cont => s.setPc (s.pc + 1)
  | .taken => s
  | .halted => s.setStatus .halted
  | .faulted c => s.setStatus (.faulted c)

/-- `raise DivideByZero(pc)` and every other cause (R10, R160): one fault event tagged with the program counter, the
status changed, nothing else. The core has no handler, no saved registers and no return from a fault (R166, R167). -/
def State.raise (s : State) (c : Cause) : State := (s.emit (.fault c s.pc)).retire (.faulted c)

/-! ### Endings shared by the meanings -/

/-- The instruction's rule left the state `s` and its step result is `r`. -/
def finish (r : StepResult) (s : State) : Host.Outcome State Fault Refusal := .next (s.retire r)

/-- Write the one destination register and continue. -/
def finishReg (d : Reg) (v : Int) (s : State) : Host.Outcome State Fault Refusal := finish .cont (s.setReg d v)

/-- Take a jump to a literal address: "`pc` is overwritten with the operand address" (R23, R143). -/
def finishJump (a : Addr) (s : State) : Host.Outcome State Fault Refusal := finish .taken (s.setPc a.toNat)

end Sys2Proof.Machine
end

