-- ==== Sys2Proof/Machine/Operands.lean ====
section
/-! DEFINITION. The operand forms (spec 30_encoding.md R63, R79): a register read as a source, two registers read as sources
before the destination is written (00_scope.md R10), a literal address used as a memory cell or as a jump target
(20_memory.md R42, 44_control_flow.md R143), LOAD's literal (R71, R79). There is no other addressing mode. -/

namespace Sys2Proof.Machine

/-- A form with one source register and one destination: the source is read first. -/
def withSource (d a : Reg) (f : Config → Int → Int) (s : State) : Host.Outcome State Fault Refusal :=
  finishReg d (f s.cfg (s.getReg a)) s

/-- A form with two source registers and one destination: both sources are read first. -/
def withSources (d a b : Reg) (f : Config → Int → Int → Int) (s : State) : Host.Outcome State Fault Refusal :=
  finishReg d (f s.cfg (s.getReg a) (s.getReg b)) s

/-- As `withSources`, for a form whose second source is a divisor: zero raises the runtime fault (R113, R114, R160). -/
def withDivisor (d a b : Reg) (f : Config → Int → Int → Int) (s : State) : Host.Outcome State Fault Refusal :=
  if s.getReg b = 0 then .next (s.raise .divideByZero) else withSources d a b f s

/-- LOAD's literal: a record whose literal is outside `[MIN, MAX]` is not well-formed and is refused (R79, D20, U5). -/
def withLiteral (d : Reg) (v : Int) (s : State) : Host.Outcome State Fault Refusal :=
  if InRange s.cfg.xlen v then finishReg d v s else .refused .illFormedRecord

/-- A conditional jump (R141, R142): taken, or the next instruction in sequence. -/
def jumpIf (cond : Bool) (a : Addr) (s : State) : Host.Outcome State Fault Refusal :=
  if cond then finishJump a s else finish .cont s

end Sys2Proof.Machine
end

