-- ==== Sys2Proof/Machine/Arithmetic.lean ====
section
/-! DEFINITION. ADD, SUB, MUL, DIV, REM (spec 41_arithmetic.md). -/

namespace Sys2Proof.Machine

/-- R110. -/
def execAdd (d a b : Reg) (s : State) : Host.Outcome State Fault Refusal := withSources d a b aluAdd s

/-- R111: the first source is the minuend. -/
def execSub (d a b : Reg) (s : State) : Host.Outcome State Fault Refusal := withSources d a b aluSub s

/-- R112. -/
def execMul (d a b : Reg) (s : State) : Host.Outcome State Fault Refusal := withSources d a b aluMul s

/-- R113: the first source is the dividend; a zero divisor raises `DivideByZero`. -/
def execDiv (d a b : Reg) (s : State) : Host.Outcome State Fault Refusal := withDivisor d a b aluDiv s

/-- R114: the first source is the dividend; a zero divisor raises `DivideByZero`. -/
def execRem (d a b : Reg) (s : State) : Host.Outcome State Fault Refusal := withDivisor d a b aluRem s

end Sys2Proof.Machine
end

