-- ==== Sys2Proof/Machine/Flags.lean ====
section
/-! DEFINITION. The core has no flags, no condition codes and no predicate registers (spec 10_state.md R24): what stands here
are the outcomes that other machines keep in flags, as the integers 1 and 0 in a general register (43_compare.md R136), and
the zero test of the conditional jumps (44_control_flow.md R141, R142). -/

namespace Sys2Proof.Machine

/-- "1 if the relation holds and 0 if it does not" (R136). -/
def truth (b : Bool) : Int := if b then 1 else 0

/-- GT (R130): the first source is the left-hand side. -/
def cmpGt (x y : Int) : Int := truth (decide (x > y))

/-- LT (R131). -/
def cmpLt (x y : Int) : Int := truth (decide (x < y))

/-- GTE (R132). -/
def cmpGte (x y : Int) : Int := truth (decide (x ≥ y))

/-- LTE (R133). -/
def cmpLte (x y : Int) : Int := truth (decide (x ≤ y))

/-- EQ (R134). -/
def cmpEq (x y : Int) : Int := truth (decide (x = y))

/-- NEQ (R135). -/
def cmpNeq (x y : Int) : Int := truth (decide (x ≠ y))

/-- The register tested by JZ and JNZ holds zero. -/
def State.isZero (s : State) (r : Reg) : Bool := decide (s.getReg r = 0)

end Sys2Proof.Machine
end

