-- ==== Sys2Proof/Machine/Compare.lean ====
section
/-! DEFINITION. GT, LT, GTE, LTE, EQ, NEQ (spec 43_compare.md). None can fault. -/

namespace Sys2Proof.Machine

/-- R130. -/
def execGt (d a b : Reg) (s : State) : Host.Outcome State Fault Refusal := withSources d a b (fun _ => cmpGt) s

/-- R131. -/
def execLt (d a b : Reg) (s : State) : Host.Outcome State Fault Refusal := withSources d a b (fun _ => cmpLt) s

/-- R132. -/
def execGte (d a b : Reg) (s : State) : Host.Outcome State Fault Refusal := withSources d a b (fun _ => cmpGte) s

/-- R133. -/
def execLte (d a b : Reg) (s : State) : Host.Outcome State Fault Refusal := withSources d a b (fun _ => cmpLte) s

/-- R134. -/
def execEq (d a b : Reg) (s : State) : Host.Outcome State Fault Refusal := withSources d a b (fun _ => cmpEq) s

/-- R135. -/
def execNeq (d a b : Reg) (s : State) : Host.Outcome State Fault Refusal := withSources d a b (fun _ => cmpNeq) s

end Sys2Proof.Machine
end

