-- ==== Sys2Proof/Machine/ControlFlow.lean ====
section
/-! DEFINITION. JMP, JZ, JNZ (spec 44_control_flow.md). A target past the program is legal here: the next step ends the run
(R145). -/

namespace Sys2Proof.Machine

/-- R140. -/
def execJmp (a : Addr) (s : State) : Host.Outcome State Fault Refusal := finishJump a s

/-- R141. -/
def execJz (r : Reg) (a : Addr) (s : State) : Host.Outcome State Fault Refusal := jumpIf (s.isZero r) a s

/-- R142. -/
def execJnz (r : Reg) (a : Addr) (s : State) : Host.Outcome State Fault Refusal := jumpIf (!s.isZero r) a s

end Sys2Proof.Machine
end

