-- ==== Sys2Proof/Machine/DataMovement.lean ====
section
/-! DEFINITION. LOAD and STORE (spec 40_data_movement.md). -/

namespace Sys2Proof.Machine

/-- R100: `x[d] <- value`. -/
def execLoad (d : Reg) (v : Int) (s : State) : Host.Outcome State Fault Refusal := withLiteral d v s

/-- R101: `MemWrite(addr, 1, x[s])`. -/
def execStore (r : Reg) (a : Addr) (s : State) : Host.Outcome State Fault Refusal :=
  finish .cont (s.writeMem a (s.getReg r))

end Sys2Proof.Machine
end

