-- ==== Sys2Proof/Machine/LogicShift.lean ====
section
/-! DEFINITION. AND, OR, XOR, SHL, SHR, NOT (spec 42_logic_shift.md). None can fault. -/

namespace Sys2Proof.Machine

/-- R120. -/
def execAnd (d a b : Reg) (s : State) : Host.Outcome State Fault Refusal := withSources d a b aluAnd s

/-- R121. -/
def execOr (d a b : Reg) (s : State) : Host.Outcome State Fault Refusal := withSources d a b aluOr s

/-- R122. -/
def execXor (d a b : Reg) (s : State) : Host.Outcome State Fault Refusal := withSources d a b aluXor s

/-- R123: the second source holds the amount. -/
def execShl (d a b : Reg) (s : State) : Host.Outcome State Fault Refusal := withSources d a b aluShl s

/-- R124: the second source holds the amount. -/
def execShr (d a b : Reg) (s : State) : Host.Outcome State Fault Refusal := withSources d a b aluShr s

/-- R125. -/
def execNot (d a : Reg) (s : State) : Host.Outcome State Fault Refusal := withSource d a aluNot s

end Sys2Proof.Machine
end

