-- ==== Sys2Proof/Machine/System.lean ====
section
/-! DEFINITION. PRINT in its two forms and HALT (spec 45_system.md). -/

namespace Sys2Proof.Machine

/-- R150: `emit ShowReg(s, x[s])`. -/
def execPrint (r : Reg) (s : State) : Host.Outcome State Fault Refusal :=
  finish .cont (s.emit (.showReg r (s.getReg r)))

/-- R151: `emit ShowMem(addr, MemRead(addr, 1))`. -/
def execPrintMem (a : Addr) (s : State) : Host.Outcome State Fault Refusal :=
  finish .cont (s.emit (.showMem a (s.readMem a)))

/-- R152: `result <- Halted`; nothing but the run status changes. -/
def execHalt (s : State) : Host.Outcome State Fault Refusal := finish .halted s

end Sys2Proof.Machine
end

