-- ==== Sys2Proof/Machine/Dispatch.lean ====
section
/-! DEFINITION. `Execute` of spec 10_state.md R30: one instruction applied to the state, the program-counter logic and the
run status included. -/

namespace Sys2Proof.Machine

def exec (i : Instr) (s : State) : Host.Outcome State Fault Refusal :=
  match i with
  | .load d v => Sys2Proof.Machine.execLoad d v s
  | .store r a => Sys2Proof.Machine.execStore r a s
  | .add d a b => Sys2Proof.Machine.execAdd d a b s
  | .sub d a b => Sys2Proof.Machine.execSub d a b s
  | .mul d a b => Sys2Proof.Machine.execMul d a b s
  | .div d a b => Sys2Proof.Machine.execDiv d a b s
  | .rem d a b => Sys2Proof.Machine.execRem d a b s
  | .and d a b => Sys2Proof.Machine.execAnd d a b s
  | .or d a b => Sys2Proof.Machine.execOr d a b s
  | .xor d a b => Sys2Proof.Machine.execXor d a b s
  | .shl d a b => Sys2Proof.Machine.execShl d a b s
  | .shr d a b => Sys2Proof.Machine.execShr d a b s
  | .not d a => Sys2Proof.Machine.execNot d a s
  | .gt d a b => Sys2Proof.Machine.execGt d a b s
  | .lt d a b => Sys2Proof.Machine.execLt d a b s
  | .gte d a b => Sys2Proof.Machine.execGte d a b s
  | .lte d a b => Sys2Proof.Machine.execLte d a b s
  | .eq d a b => Sys2Proof.Machine.execEq d a b s
  | .neq d a b => Sys2Proof.Machine.execNeq d a b s
  | .jmp a => Sys2Proof.Machine.execJmp a s
  | .jz r a => Sys2Proof.Machine.execJz r a s
  | .jnz r a => Sys2Proof.Machine.execJnz r a s
  | .print r => Sys2Proof.Machine.execPrint r s
  | .printMem a => Sys2Proof.Machine.execPrintMem a s
  | .halt => Sys2Proof.Machine.execHalt s

end Sys2Proof.Machine
end

