-- ==== Sys2Proof/Machine/Cycle.lean ====
section
/-! DEFINITION. The fetch-execute cycle in program mode (spec 10_state.md R30) and the step result an instruction reports
(R29). -/

namespace Sys2Proof.Machine

/-- R30. While `Running`: out of the program, the run ends; else the instruction at `pc` executes. Otherwise "no step is
possible". -/
def cycle (s : State) : Host.Outcome State Fault Refusal :=
  match s.status with
  | .running =>
    match s.fetch with
    | none => .next (s.setStatus .ended)
    | some i => exec i s
  | .halted => .fault (.notRunning .halted)
  | .faulted c => .fault (.notRunning (.faulted c))
  | .ended => .fault (.notRunning .ended)

/-- The step result the engine reports for an instruction executed in `s` (R29). -/
def stepResult (s : State) : Instr → StepResult
  | .jmp _ => .taken
  | .jz r _ => if s.isZero r then .taken else .cont
  | .jnz r _ => if s.isZero r then .cont else .taken
  | .div _ _ b => if s.isZero b then .faulted .divideByZero else .cont
  | .rem _ _ b => if s.isZero b then .faulted .divideByZero else .cont
  | .halt => .halted
  | .load _ _ => .cont
  | .store _ _ => .cont
  | .add _ _ _ => .cont
  | .sub _ _ _ => .cont
  | .mul _ _ _ => .cont
  | .and _ _ _ => .cont
  | .or _ _ _ => .cont
  | .xor _ _ _ => .cont
  | .shl _ _ _ => .cont
  | .shr _ _ _ => .cont
  | .not _ _ => .cont
  | .gt _ _ _ => .cont
  | .lt _ _ _ => .cont
  | .gte _ _ _ => .cont
  | .lte _ _ _ => .cont
  | .eq _ _ _ => .cont
  | .neq _ _ _ => .cont
  | .print _ => .cont
  | .printMem _ => .cont

/-- The boolean of the source: "false means halt or fatal fault" (R29). -/
def StepResult.continues : StepResult → Bool
  | .cont => true
  | .taken => true
  | .halted => false
  | .faulted _ => false

/-- The status a run has after an instruction with this result, if it was running (R29). -/
def StepResult.status : StepResult → RunStatus
  | .cont => .running
  | .taken => .running
  | .halted => .halted
  | .faulted c => .faulted c

end Sys2Proof.Machine
end

