-- ==== Sys2Proof/WellFormed.lean ====
section
/-! DEFINITION. Which instructions are well-formed (spec 30_encoding.md R79). The types of `Reg` and `Addr` leave one check:
LOAD's literal lies in `[MIN, MAX]`. -/

namespace Sys2Proof

/-- R79 for a typed instruction, at the register width `xlen`. -/
def Instr.wellFormed (xlen : Nat) : Instr → Bool
  | .load _ v => decide (InRange xlen v)
  | .store _ _ => true
  | .add _ _ _ => true
  | .sub _ _ _ => true
  | .mul _ _ _ => true
  | .div _ _ _ => true
  | .rem _ _ _ => true
  | .and _ _ _ => true
  | .or _ _ _ => true
  | .xor _ _ _ => true
  | .shl _ _ _ => true
  | .shr _ _ _ => true
  | .not _ _ => true
  | .gt _ _ _ => true
  | .lt _ _ _ => true
  | .gte _ _ _ => true
  | .lte _ _ _ => true
  | .eq _ _ _ => true
  | .neq _ _ _ => true
  | .jmp _ => true
  | .jz _ _ => true
  | .jnz _ _ => true
  | .print _ => true
  | .printMem _ => true
  | .halt => true

end Sys2Proof
end

