-- ==== Sys2Proof/Decode.lean ====
section
/-! DEFINITION. The record level and the word level of the decoder (spec 30_encoding.md R63, R77 to R86): records and typed
instructions, the packed word of 16 + XLEN bits, the total word decoder with its errors in the order of R84, and the encoder
(`pack` of R85). The text level is Machine/Text.lean. -/

namespace Sys2Proof

/-! ### Register and address operands -/

/-- A register's index (R20). -/
def Reg.index : Reg → Nat
  | .r0 => 0
  | .r1 => 1
  | .r2 => 2
  | .r3 => 3

/-- The register with a given index, 0 to 3 (R20, R68). -/
def Reg.ofIndex : Nat → Option Reg
  | 0 => some .r0
  | 1 => some .r1
  | 2 => some .r2
  | 3 => some .r3
  | _ => none

/-- The register a 2-bit field names: such a field "has no invalid value" (R84). -/
def Reg.ofField (n : Nat) : Reg :=
  match n % 4 with
  | 0 => .r0
  | 1 => .r1
  | 2 => .r2
  | _ => .r3

/-- A register operand of a record (R79). -/
def regOperand (o : Int) : Option Reg :=
  if 0 ≤ o then Reg.ofIndex o.toNat else none

/-- An address operand of a record, 0 to 255 (R79). -/
def addrOperand (o : Int) : Option Addr :=
  if 0 ≤ o ∧ o ≤ 255 then some (BitVec.ofNat 8 o.toNat) else none

/-! ### The record level -/

/-- The opcode tag of an instruction (R77). -/
def Instr.mnemonic : Instr → Mnemonic
  | .load _ _ => .load
  | .store _ _ => .store
  | .add _ _ _ => .add
  | .sub _ _ _ => .sub
  | .mul _ _ _ => .mul
  | .div _ _ _ => .div
  | .rem _ _ _ => .rem
  | .and _ _ _ => .and
  | .or _ _ _ => .or
  | .xor _ _ _ => .xor
  | .shl _ _ _ => .shl
  | .shr _ _ _ => .shr
  | .not _ _ => .not
  | .gt _ _ _ => .gt
  | .lt _ _ _ => .lt
  | .gte _ _ _ => .gte
  | .lte _ _ _ => .lte
  | .eq _ _ _ => .eq
  | .neq _ _ _ => .neq
  | .jmp _ => .jmp
  | .jz _ _ => .jz
  | .jnz _ _ => .jnz
  | .print _ => .print
  | .printMem _ => .print
  | .halt => .halt

/-- The operands of an instruction's record, in the order of R63, with PRINT's sentinel (R80). -/
def Instr.operands : Instr → List Int
  | .load d v => [d.index, v]
  | .store s a => [s.index, a.toNat]
  | .add d s1 s2 => [d.index, s1.index, s2.index]
  | .sub d s1 s2 => [d.index, s1.index, s2.index]
  | .mul d s1 s2 => [d.index, s1.index, s2.index]
  | .div d s1 s2 => [d.index, s1.index, s2.index]
  | .rem d s1 s2 => [d.index, s1.index, s2.index]
  | .and d s1 s2 => [d.index, s1.index, s2.index]
  | .or d s1 s2 => [d.index, s1.index, s2.index]
  | .xor d s1 s2 => [d.index, s1.index, s2.index]
  | .shl d s1 s2 => [d.index, s1.index, s2.index]
  | .shr d s1 s2 => [d.index, s1.index, s2.index]
  | .not d s => [d.index, s.index]
  | .gt d s1 s2 => [d.index, s1.index, s2.index]
  | .lt d s1 s2 => [d.index, s1.index, s2.index]
  | .gte d s1 s2 => [d.index, s1.index, s2.index]
  | .lte d s1 s2 => [d.index, s1.index, s2.index]
  | .eq d s1 s2 => [d.index, s1.index, s2.index]
  | .neq d s1 s2 => [d.index, s1.index, s2.index]
  | .jmp a => [a.toNat]
  | .jz s a => [s.index, a.toNat]
  | .jnz s a => [s.index, a.toNat]
  | .print s => [-1, s.index]
  | .printMem a => [a.toNat]
  | .halt => []

/-- The record of an instruction (R63, R77). -/
def Instr.record (i : Instr) : Record := { tag := i.mnemonic, operands := i.operands }

/-- The operand kinds of each shape a tag admits: the table of R63 at the record level; PRINT has two shapes (R80). -/
def Mnemonic.shapes : Mnemonic → List (List OperandKind)
  | .load => [[.reg, .value]]
  | .store | .jz | .jnz => [[.reg, .addr]]
  | .not => [[.reg, .reg]]
  | .jmp => [[.addr]]
  | .print => [[.sentinel, .reg], [.addr]]
  | .halt => [[]]
  | .add | .sub | .mul | .div | .rem | .and | .or | .xor | .shl | .shr
  | .gt | .lt | .gte | .lte | .eq | .neq => [[.reg, .reg, .reg]]

/-- The operand lies in its kind's range (R79). -/
def OperandKind.admits (xlen : Nat) (o : Int) : OperandKind → Bool
  | .reg => decide (0 ≤ o ∧ o ≤ 3)
  | .addr => decide (0 ≤ o ∧ o ≤ 255)
  | .value => decide (InRange xlen o)
  | .sentinel => decide (o = -1)

/-- The operands fit a shape, position by position, with none missing and none left over. -/
def fitsShape (xlen : Nat) : List OperandKind → List Int → Bool
  | [], [] => true
  | k :: ks, o :: os => k.admits xlen o && fitsShape xlen ks os
  | _, _ => false

/-- R79: the record is one of the shapes of R63 with every operand in its range. -/
def Record.wellFormed (xlen : Nat) (r : Record) : Bool :=
  r.tag.shapes.any fun ks => fitsShape xlen ks r.operands

/-- Three register operands. -/
def ofRRR (mk : Reg → Reg → Reg → Instr) : List Int → Option Instr
  | [d, s1, s2] =>
    match regOperand d, regOperand s1, regOperand s2 with
    | some d, some s1, some s2 => some (mk d s1 s2)
    | _, _, _ => none
  | _ => none

/-- A register operand and an address operand. -/
def ofRA (mk : Reg → Addr → Instr) : List Int → Option Instr
  | [s, a] =>
    match regOperand s, addrOperand a with
    | some s, some a => some (mk s a)
    | _, _ => none
  | _ => none

/-- The operands of LOAD. -/
def ofLoad (xlen : Nat) : List Int → Option Instr
  | [d, v] => if InRange xlen v then (regOperand d).map fun d => .load d v else none
  | _ => none

/-- The operands of NOT. -/
def ofNot : List Int → Option Instr
  | [d, s] =>
    match regOperand d, regOperand s with
    | some d, some s => some (.not d s)
    | _, _ => none
  | _ => none

/-- The operands of JMP. -/
def ofJmp : List Int → Option Instr
  | [a] => (addrOperand a).map .jmp
  | _ => none

/-- The operands of PRINT: two operands led by the sentinel `-1`, or one address (R80, R150, R151). -/
def ofPrint : List Int → Option Instr
  | [o, s] => if o = -1 then (regOperand s).map .print else none
  | [a] => (addrOperand a).map .printMem
  | _ => none

/-- The operands of HALT. -/
def ofHalt : List Int → Option Instr
  | [] => some .halt
  | _ => none

/-- The instruction a record stands for, none where the record is not well-formed (R79, D20). -/
def Record.toInstr (xlen : Nat) (r : Record) : Option Instr :=
  match r.tag with
  | .load => ofLoad xlen r.operands
  | .store => ofRA .store r.operands
  | .add => ofRRR .add r.operands
  | .sub => ofRRR .sub r.operands
  | .mul => ofRRR .mul r.operands
  | .div => ofRRR .div r.operands
  | .rem => ofRRR .rem r.operands
  | .and => ofRRR .and r.operands
  | .or => ofRRR .or r.operands
  | .xor => ofRRR .xor r.operands
  | .shl => ofRRR .shl r.operands
  | .shr => ofRRR .shr r.operands
  | .not => ofNot r.operands
  | .gt => ofRRR .gt r.operands
  | .lt => ofRRR .lt r.operands
  | .gte => ofRRR .gte r.operands
  | .lte => ofRRR .lte r.operands
  | .eq => ofRRR .eq r.operands
  | .neq => ofRRR .neq r.operands
  | .jmp => ofJmp r.operands
  | .jz => ofRA .jz r.operands
  | .jnz => ofRA .jnz r.operands
  | .print => ofPrint r.operands
  | .halt => ofHalt r.operands

/-! ### The word level -/

/-- The opcode numbers of R82. -/
def Mnemonic.opcode : Mnemonic → Nat
  | .load => 0
  | .store => 1
  | .add => 2
  | .sub => 3
  | .mul => 4
  | .div => 5
  | .rem => 6
  | .and => 7
  | .or => 8
  | .xor => 9
  | .shl => 10
  | .shr => 11
  | .not => 12
  | .gt => 13
  | .lt => 14
  | .gte => 15
  | .lte => 16
  | .eq => 17
  | .neq => 18
  | .jmp => 19
  | .jz => 20
  | .jnz => 21
  | .print => 22
  | .halt => 23

/-- R82 read backwards: numbers 24 to 31 are not instructions. -/
def Mnemonic.ofOpcode : Nat → Option Mnemonic
  | 0 => some .load
  | 1 => some .store
  | 2 => some .add
  | 3 => some .sub
  | 4 => some .mul
  | 5 => some .div
  | 6 => some .rem
  | 7 => some .and
  | 8 => some .or
  | 9 => some .xor
  | 10 => some .shl
  | 11 => some .shr
  | 12 => some .not
  | 13 => some .gt
  | 14 => some .lt
  | 15 => some .gte
  | 16 => some .lte
  | 17 => some .eq
  | 18 => some .neq
  | 19 => some .jmp
  | 20 => some .jz
  | 21 => some .jnz
  | 22 => some .print
  | 23 => some .halt
  | _ => none

/-- The format of R83, chosen by the opcode and for PRINT by the `m` field. -/
def Mnemonic.format (m : Nat) : Mnemonic → Format
  | .load => .ri
  | .store | .jz | .jnz => .ra
  | .not => .rr
  | .jmp => .a
  | .print => if m = 0 then .pr else .pm
  | .halt => .n
  | .add | .sub | .mul | .div | .rem | .and | .or | .xor | .shl | .shr
  | .gt | .lt | .gte | .lte | .eq | .neq => .rrr

/-- The bit positions of R81; `imm` is everything from bit 16 up. -/
def Fields.ofWord (w : Nat) : Fields :=
  { op := slice w 0 5, a := slice w 5 2, b := slice w 7 2, c := slice w 9 2, m := slice w 11 1, z := slice w 12 4,
    imm := w / 2 ^ 16 }

/-- The word's value (R81, with the reserved field in its place). -/
def Fields.word (f : Fields) : Nat :=
  f.op + 32 * f.a + 128 * f.b + 512 * f.c + 2048 * f.m + 4096 * f.z + 65536 * f.imm

/-- The format carries an address in `imm` (R83). -/
def Format.usesAddr : Format → Bool
  | .ra | .a | .pm => true
  | .ri | .rrr | .rr | .pr | .n => false

/-- Every register field and immediate the format does not use is 0 (R83). -/
def Format.unusedZero (f : Fields) : Format → Bool
  | .ri => decide (f.b = 0 ∧ f.c = 0)
  | .ra => decide (f.b = 0 ∧ f.c = 0)
  | .rrr => decide (f.imm = 0)
  | .rr => decide (f.c = 0 ∧ f.imm = 0)
  | .a => decide (f.a = 0 ∧ f.b = 0 ∧ f.c = 0)
  | .pr => decide (f.b = 0 ∧ f.c = 0 ∧ f.imm = 0)
  | .pm => decide (f.a = 0 ∧ f.b = 0 ∧ f.c = 0)
  | .n => decide (f.a = 0 ∧ f.b = 0 ∧ f.c = 0 ∧ f.imm = 0)

/-- The instruction the fields of a valid word stand for (R83): LOAD's literal is all of `imm`, signed; an address is
`imm`, unsigned; a register is its 2-bit field. -/
def Fields.instr (xlen : Nat) (f : Fields) : Mnemonic → Instr
  | .load => .load (.ofField f.a) (wrap xlen f.imm)
  | .store => .store (.ofField f.a) (BitVec.ofNat 8 f.imm)
  | .add => .add (.ofField f.a) (.ofField f.b) (.ofField f.c)
  | .sub => .sub (.ofField f.a) (.ofField f.b) (.ofField f.c)
  | .mul => .mul (.ofField f.a) (.ofField f.b) (.ofField f.c)
  | .div => .div (.ofField f.a) (.ofField f.b) (.ofField f.c)
  | .rem => .rem (.ofField f.a) (.ofField f.b) (.ofField f.c)
  | .and => .and (.ofField f.a) (.ofField f.b) (.ofField f.c)
  | .or => .or (.ofField f.a) (.ofField f.b) (.ofField f.c)
  | .xor => .xor (.ofField f.a) (.ofField f.b) (.ofField f.c)
  | .shl => .shl (.ofField f.a) (.ofField f.b) (.ofField f.c)
  | .shr => .shr (.ofField f.a) (.ofField f.b) (.ofField f.c)
  | .not => .not (.ofField f.a) (.ofField f.b)
  | .gt => .gt (.ofField f.a) (.ofField f.b) (.ofField f.c)
  | .lt => .lt (.ofField f.a) (.ofField f.b) (.ofField f.c)
  | .gte => .gte (.ofField f.a) (.ofField f.b) (.ofField f.c)
  | .lte => .lte (.ofField f.a) (.ofField f.b) (.ofField f.c)
  | .eq => .eq (.ofField f.a) (.ofField f.b) (.ofField f.c)
  | .neq => .neq (.ofField f.a) (.ofField f.b) (.ofField f.c)
  | .jmp => .jmp (BitVec.ofNat 8 f.imm)
  | .jz => .jz (.ofField f.a) (BitVec.ofNat 8 f.imm)
  | .jnz => .jnz (.ofField f.a) (BitVec.ofNat 8 f.imm)
  | .print => if f.m = 0 then .print (.ofField f.a) else .printMem (BitVec.ofNat 8 f.imm)
  | .halt => .halt

/-- The checks of R84 on the fields of a word, in the rule's order. -/
def Fields.decode (xlen : Nat) (f : Fields) : Decoded Instr :=
  match Mnemonic.ofOpcode f.op with
  | none => .error (.unknownOpcode f.op)
  | some k =>
    if (k.format f.m).usesAddr = true ∧ 255 < f.imm then .error .invalidAddress
    else if f.z ≠ 0 ∨ (f.m = 1 ∧ k ≠ .print) ∨ (k.format f.m).unusedZero f = false then .error .reservedEncoding
    else .ok (f.instr xlen k)

/-- R84: the word decoder, total on every word of `IW = 16 + XLEN` bits. -/
def decodeWord (xlen : Nat) (w : BitVec (16 + xlen)) : Decoded Instr :=
  (Fields.ofWord w.toNat).decode xlen

/-! ### The encoder -/

/-- The fields of an instruction's word (R83): those its format does not use are 0. -/
def Instr.fields (xlen : Nat) : Instr → Fields
  | .load d v => { op := 0, a := d.index, b := 0, c := 0, m := 0, z := 0, imm := unsigned xlen v }
  | .store s a => { op := 1, a := s.index, b := 0, c := 0, m := 0, z := 0, imm := a.toNat }
  | .add d s1 s2 => { op := 2, a := d.index, b := s1.index, c := s2.index, m := 0, z := 0, imm := 0 }
  | .sub d s1 s2 => { op := 3, a := d.index, b := s1.index, c := s2.index, m := 0, z := 0, imm := 0 }
  | .mul d s1 s2 => { op := 4, a := d.index, b := s1.index, c := s2.index, m := 0, z := 0, imm := 0 }
  | .div d s1 s2 => { op := 5, a := d.index, b := s1.index, c := s2.index, m := 0, z := 0, imm := 0 }
  | .rem d s1 s2 => { op := 6, a := d.index, b := s1.index, c := s2.index, m := 0, z := 0, imm := 0 }
  | .and d s1 s2 => { op := 7, a := d.index, b := s1.index, c := s2.index, m := 0, z := 0, imm := 0 }
  | .or d s1 s2 => { op := 8, a := d.index, b := s1.index, c := s2.index, m := 0, z := 0, imm := 0 }
  | .xor d s1 s2 => { op := 9, a := d.index, b := s1.index, c := s2.index, m := 0, z := 0, imm := 0 }
  | .shl d s1 s2 => { op := 10, a := d.index, b := s1.index, c := s2.index, m := 0, z := 0, imm := 0 }
  | .shr d s1 s2 => { op := 11, a := d.index, b := s1.index, c := s2.index, m := 0, z := 0, imm := 0 }
  | .not d s => { op := 12, a := d.index, b := s.index, c := 0, m := 0, z := 0, imm := 0 }
  | .gt d s1 s2 => { op := 13, a := d.index, b := s1.index, c := s2.index, m := 0, z := 0, imm := 0 }
  | .lt d s1 s2 => { op := 14, a := d.index, b := s1.index, c := s2.index, m := 0, z := 0, imm := 0 }
  | .gte d s1 s2 => { op := 15, a := d.index, b := s1.index, c := s2.index, m := 0, z := 0, imm := 0 }
  | .lte d s1 s2 => { op := 16, a := d.index, b := s1.index, c := s2.index, m := 0, z := 0, imm := 0 }
  | .eq d s1 s2 => { op := 17, a := d.index, b := s1.index, c := s2.index, m := 0, z := 0, imm := 0 }
  | .neq d s1 s2 => { op := 18, a := d.index, b := s1.index, c := s2.index, m := 0, z := 0, imm := 0 }
  | .jmp a => { op := 19, a := 0, b := 0, c := 0, m := 0, z := 0, imm := a.toNat }
  | .jz s a => { op := 20, a := s.index, b := 0, c := 0, m := 0, z := 0, imm := a.toNat }
  | .jnz s a => { op := 21, a := s.index, b := 0, c := 0, m := 0, z := 0, imm := a.toNat }
  | .print s => { op := 22, a := s.index, b := 0, c := 0, m := 0, z := 0, imm := 0 }
  | .printMem a => { op := 22, a := 0, b := 0, c := 0, m := 1, z := 0, imm := a.toNat }
  | .halt => { op := 23, a := 0, b := 0, c := 0, m := 0, z := 0, imm := 0 }

/-- `pack` of R85: the packed word of a well-formed instruction. -/
def encode (xlen : Nat) (i : Instr) : BitVec (16 + xlen) :=
  BitVec.ofNat (16 + xlen) (i.fields xlen).word

/-- The mask and the match value of an instruction form at the width `xlen` (R86): 1 in every bit its format fixes. -/
def Format.mask (xlen : Nat) : Format → Nat
  | .ri => 0xFF9F
  | .ra => 0xFF9F + 65536 * (2 ^ xlen - 256)
  | .rrr => 0xF81F + 65536 * (2 ^ xlen - 1)
  | .rr => 0xFE1F + 65536 * (2 ^ xlen - 1)
  | .a => 0xFFFF + 65536 * (2 ^ xlen - 256)
  | .pr => 0xFF9F + 65536 * (2 ^ xlen - 1)
  | .pm => 0xFFFF + 65536 * (2 ^ xlen - 256)
  | .n => 0xFFFF + 65536 * (2 ^ xlen - 1)

/-- The `m` field of the instruction's own form: 1 for PRINT MEM only (R81). -/
def Instr.form : Instr → Nat
  | .printMem _ => 1
  | _ => 0

/-- A row of R86: the word is of the form (`k`, `m`). -/
def matchesRow (xlen : Nat) (w : BitVec (16 + xlen)) (k : Mnemonic) (m : Nat) : Bool :=
  decide (w &&& BitVec.ofNat (16 + xlen) ((k.format m).mask xlen) =
    BitVec.ofNat (16 + xlen) (k.opcode + 2048 * m))

/-- What the host asks of the decoder: the instruction read from the low `nbits` bits of `w`, every higher bit of the
80-bit word 0. The word is one number, bit 0 its least significant bit (R81), so no byte order enters (R44). -/
def decodeTableWord (nbits w : Nat) : Option Instr :=
  match decodeWord Config.standard.xlen (BitVec.ofNat (16 + Config.standard.xlen) (w % 2 ^ nbits)) with
  | .ok i => some i
  | .error _ => none
  | .unsettled => none

end Sys2Proof
end

