-- ==== Sys2Proof/Machine/Fetch.lean ====
section
/-! DEFINITION. Placing an instruction where the next step fetches it (the work of `State.withFetchWord`). The core fetches
`program[pc]`, and a program is attached from outside (spec 70_reset_and_hazards.md R181), so this stands for a load. -/

namespace Sys2Proof.Machine

/-- The program with `i` at index `n`; a program too short is filled up with HALT. -/
def placeAt : List Instr → Nat → Instr → List Instr
  | [], 0, i => [i]
  | _ :: p, 0, i => i :: p
  | [], n + 1, i => .halt :: placeAt [] n i
  | j :: p, n + 1, i => j :: placeAt p n i

/-- A running state whose next fetch gives `i`: a program counter below 0, which no run has (R22), goes to 0. -/
def State.placed (s : State) (i : Instr) : State :=
  { s with program := placeAt s.program s.pc.toNat i, pc := s.pc.toNat, status := .running }

/-- The packed word in the low `nbits` bits of `w`, higher bits 0, at the state's own width; an invalid word never enters
the program store (R84, R182), so it changes nothing. -/
def State.placedWord (s : State) (nbits w : Nat) : State :=
  match decodeWord s.cfg.xlen (BitVec.ofNat (16 + s.cfg.xlen) (w % 2 ^ nbits)) with
  | .ok i => s.placed i
  | .error _ => s
  | .unsettled => s

end Sys2Proof.Machine
end

