-- ==== Sys2Proof/Machine/Step.lean ====
section
/-! DEFINITION. One step of the machine (spec 10_state.md R30), and placing an instruction where the next step fetches it. -/

namespace Sys2Proof.Machine

/-- One step of the cycle of R30. -/
def step (s : State) : Host.Outcome State Fault Refusal := cycle s

/-- The state with the instruction of a packed word at its program counter, running. -/
def State.withFetchWord (s : State) (nbits w : Nat) : State := s.placedWord nbits w

end Sys2Proof.Machine
end

