-- ==== Sys2Proof/Machine/Text.lean ====
section
/-! DEFINITION. The text level of the decoder (spec 30_encoding.md R60 to R76): one line of characters, without its line
terminator, to an instruction or one decode error; and the canonical text of an instruction (R85). The decoder reads no state
and changes none (R31); the register width bounds LOAD's literal (R71). -/

namespace Sys2Proof

/-! ### Lines and tokens (R60, R61) -/

/-- The six ASCII white-space characters: space, tab, LF, VT, FF, CR (R61, D8). -/
def isSpace (c : Char) : Bool :=
  c.toNat == 0x20 || c.toNat == 0x09 || c.toNat == 0x0A || c.toNat == 0x0B || c.toNat == 0x0C || c.toNat == 0x0D

/-- The line up to its first `;` (R60). -/
def stripComment (line : List Char) : List Char := line.takeWhile (fun c => c != ';')

/-- The maximal runs of other characters; `cur` is the run being read, last character first. White space at either end of
the line yields no token, so this trims too (R60). -/
def tokensFrom : List Char → List Char → List (List Char)
  | [], [] => []
  | [], c :: cur => [(c :: cur).reverse]
  | c :: cs, cur =>
    if isSpace c then
      match cur with
      | [] => tokensFrom cs []
      | d :: ds => (d :: ds).reverse :: tokensFrom cs []
    else tokensFrom cs (c :: cur)

/-- The tokens of a line (R60, R61). -/
def tokens (line : List Char) : List (List Char) := tokensFrom (stripComment line) []

/-! ### The vocabulary (R62, R63) -/

/-- A mnemonic's spelling. -/
def Mnemonic.text : Mnemonic → List Char
  | .load => ['L', 'O', 'A', 'D']
  | .store => ['S', 'T', 'O', 'R', 'E']
  | .add => ['A', 'D', 'D']
  | .sub => ['S', 'U', 'B']
  | .mul => ['M', 'U', 'L']
  | .div => ['D', 'I', 'V']
  | .rem => ['R', 'E', 'M']
  | .and => ['A', 'N', 'D']
  | .or => ['O', 'R']
  | .xor => ['X', 'O', 'R']
  | .shl => ['S', 'H', 'L']
  | .shr => ['S', 'H', 'R']
  | .not => ['N', 'O', 'T']
  | .gt => ['G', 'T']
  | .lt => ['L', 'T']
  | .gte => ['G', 'T', 'E']
  | .lte => ['L', 'T', 'E']
  | .eq => ['E', 'Q']
  | .neq => ['N', 'E', 'Q']
  | .jmp => ['J', 'M', 'P']
  | .jz => ['J', 'Z']
  | .jnz => ['J', 'N', 'Z']
  | .print => ['P', 'R', 'I', 'N', 'T']
  | .halt => ['H', 'A', 'L', 'T']

/-- The vocabulary, in the order of R63. -/
def Mnemonic.all : List Mnemonic :=
  [.load, .store, .add, .sub, .mul, .div, .rem, .and, .or, .xor, .shl, .shr, .not, .gt, .lt, .gte, .lte, .eq, .neq,
    .jmp, .jz, .jnz, .print, .halt]

/-- Case-sensitive match against the vocabulary (R62). -/
def Mnemonic.ofText (tok : List Char) : Option Mnemonic := Mnemonic.all.find? fun k => k.text == tok

/-! ### Operand tokens -/

/-- A decimal digit's value. -/
def decDigit (c : Char) : Option Nat :=
  if 0x30 ≤ c.toNat ∧ c.toNat ≤ 0x39 then some (c.toNat - 0x30) else none

/-- A hexadecimal digit's value, either case (R70, D7). -/
def hexDigit (c : Char) : Option Nat :=
  if 0x30 ≤ c.toNat ∧ c.toNat ≤ 0x39 then some (c.toNat - 0x30)
  else if 0x41 ≤ c.toNat ∧ c.toNat ≤ 0x46 then some (c.toNat - 0x41 + 10)
  else if 0x61 ≤ c.toNat ∧ c.toNat ≤ 0x66 then some (c.toNat - 0x61 + 10)
  else none

/-- Digits after the number `acc`, most significant first; none if some character is no digit. -/
def digitsFrom (base : Nat) (digit : Char → Option Nat) : Nat → List Char → Option Nat
  | acc, [] => some acc
  | acc, c :: cs =>
    match digit c with
    | some d => digitsFrom base digit (acc * base + d) cs
    | none => none

/-- One or more digits. -/
def digitsValue (base : Nat) (digit : Char → Option Nat) : List Char → Option Nat
  | [] => none
  | c :: cs => digitsFrom base digit 0 (c :: cs)

/-- A register token: `R` and one digit `0` to `3`, exactly (R68). -/
def registerToken : List Char → Decoded Reg
  | [r, d] =>
    if r = 'R' then
      match (decDigit d).bind Reg.ofIndex with
      | some x => .ok x
      | none => .error .invalidRegister
    else .error .invalidRegister
  | _ => .error .invalidRegister

/-- A hex address token: `0x` or `0X`, one or more hexadecimal digits, a value of at most 255 (R70). -/
def addressToken : List Char → Decoded Addr
  | z :: x :: ds =>
    if z = '0' ∧ (x = 'x' ∨ x = 'X') then
      match digitsValue 16 hexDigit ds with
      | some n => if n ≤ 255 then .ok (BitVec.ofNat 8 n) else .error .invalidAddress
      | none => .error .invalidAddress
    else .error .invalidAddress
  | _ => .error .invalidAddress

/-- The integer a signed decimal token spells: an optional `-`, then one or more decimal digits (R71, D6). -/
def decimalValue : List Char → Option Int
  | [] => none
  | c :: cs =>
    if c = '-' then (digitsValue 10 decDigit cs).map fun n => -(n : Int)
    else (digitsValue 10 decDigit (c :: cs)).map fun n => (n : Int)

/-- LOAD's literal token (R71): a number in `[MIN, MAX]`. A leading `+` is given no meaning (U7). -/
def valueToken (xlen : Nat) (tok : List Char) : Decoded Int :=
  if tok.head? = some '+' then .unsettled
  else
    match decimalValue tok with
    | some v => if InRange xlen v then .ok v else .error .invalidValue
    | none => .error .invalidValue

/-! ### The operands of each format, checked from left to right (R63, R73, D10) -/

/-- Go on with an operand, or answer its error. -/
def Decoded.bind {α β : Type} (x : Decoded α) (f : α → Decoded β) : Decoded β :=
  match x with
  | .ok a => f a
  | .error e => .error e
  | .unsettled => .unsettled

/-- Format RRR: three register tokens. -/
def parseRRR (k : Mnemonic) (mk : Reg → Reg → Reg → Instr) : List (List Char) → Decoded Instr
  | [t1, t2, t3] =>
    (registerToken t1).bind fun d => (registerToken t2).bind fun s1 => (registerToken t3).bind fun s2 => .ok (mk d s1 s2)
  | _ => .error (.arityError k)

/-- Format RA: a register token and an address token. -/
def parseRA (k : Mnemonic) (mk : Reg → Addr → Instr) : List (List Char) → Decoded Instr
  | [t1, t2] => (registerToken t1).bind fun s => (addressToken t2).bind fun a => .ok (mk s a)
  | _ => .error (.arityError k)

/-- Format RI: LOAD. -/
def parseLoad (xlen : Nat) : List (List Char) → Decoded Instr
  | [t1, t2] => (registerToken t1).bind fun d => (valueToken xlen t2).bind fun v => .ok (.load d v)
  | _ => .error (.arityError .load)

/-- Format RR: NOT. -/
def parseNot : List (List Char) → Decoded Instr
  | [t1, t2] => (registerToken t1).bind fun d => (registerToken t2).bind fun s => .ok (.not d s)
  | _ => .error (.arityError .not)

/-- Format A: JMP. -/
def parseJmp : List (List Char) → Decoded Instr
  | [t1] => (addressToken t1).bind fun a => .ok (.jmp a)
  | _ => .error (.arityError .jmp)

/-- PRINT's dual grammar (R72): the count is 2 or 3; then the first operand token selects the form, whose own count must
hold before its operand is read. -/
def parsePrint : List (List Char) → Decoded Instr
  | [] => .error (.arityError .print)
  | _ :: _ :: _ :: _ => .error (.arityError .print)
  | t :: rest =>
    if t = ['M', 'E', 'M'] then
      match rest with
      | [t2] => (addressToken t2).bind fun a => .ok (.printMem a)
      | _ => .error (.arityError .print)
    else if t.head? = some 'R' then
      match rest with
      | [] => (registerToken t).bind fun s => .ok (.print s)
      | _ => .error (.arityError .print)
    else .error .invalidPrintOperand

/-- Format N: HALT. -/
def parseHalt : List (List Char) → Decoded Instr
  | [] => .ok .halt
  | _ => .error (.arityError .halt)

/-- The parse routine a mnemonic selects, on the tokens after it (R63, R64). -/
def parseOperands (xlen : Nat) (k : Mnemonic) (ops : List (List Char)) : Decoded Instr :=
  match k with
  | .load => parseLoad xlen ops
  | .store => parseRA .store .store ops
  | .add => parseRRR .add .add ops
  | .sub => parseRRR .sub .sub ops
  | .mul => parseRRR .mul .mul ops
  | .div => parseRRR .div .div ops
  | .rem => parseRRR .rem .rem ops
  | .and => parseRRR .and .and ops
  | .or => parseRRR .or .or ops
  | .xor => parseRRR .xor .xor ops
  | .shl => parseRRR .shl .shl ops
  | .shr => parseRRR .shr .shr ops
  | .not => parseNot ops
  | .gt => parseRRR .gt .gt ops
  | .lt => parseRRR .lt .lt ops
  | .gte => parseRRR .gte .gte ops
  | .lte => parseRRR .lte .lte ops
  | .eq => parseRRR .eq .eq ops
  | .neq => parseRRR .neq .neq ops
  | .jmp => parseJmp ops
  | .jz => parseRA .jz .jz ops
  | .jnz => parseRA .jnz .jnz ops
  | .print => parsePrint ops
  | .halt => parseHalt ops

/-- `parse(line)` of R31: the checks in the order of R73. -/
def parse (xlen : Nat) (line : List Char) : Decoded Instr :=
  match tokens line with
  | [] => .error .emptyInstruction
  | t :: ops =>
    match Mnemonic.ofText t with
    | none => .error (.unknownInstruction t)
    | some k => parseOperands xlen k ops

/-! ### Program text (R76) -/

/-- The answer of decoding a program's lines. -/
inductive DecodedProgram where
  /-- Every non-empty line decoded: the program array. -/
  | ok (p : List Instr)
  /-- The first bad line, counted from 1 in the file, and its error (D10). -/
  | error (line : Nat) (e : DecodeError)
  /-- A line came first whose result the spec leaves open (U7). -/
  | unsettled
  deriving DecidableEq, Repr

/-- Decode lines from line number `n` on: an `EmptyInstruction` line takes no slot, any other error ends the load (R76). -/
def parseLinesFrom (xlen : Nat) : Nat → List (List Char) → DecodedProgram
  | _, [] => .ok []
  | n, l :: ls =>
    match parse xlen l with
    | .ok i =>
      match parseLinesFrom xlen (n + 1) ls with
      | .ok p => .ok (i :: p)
      | .error k e => .error k e
      | .unsettled => .unsettled
    | .error .emptyInstruction => parseLinesFrom xlen (n + 1) ls
    | .error e => .error n e
    | .unsettled => .unsettled

/-- The program array of a program text given as its lines (R76, R181). -/
def parseProgram (xlen : Nat) (lines : List (List Char)) : DecodedProgram := parseLinesFrom xlen 1 lines

/-- The program array of packed words: attached only if every word is valid (R182). Words are counted from 1. -/
def decodeWordsFrom (xlen : Nat) : Nat → List (BitVec (16 + xlen)) → DecodedProgram
  | _, [] => .ok []
  | n, w :: ws =>
    match decodeWord xlen w with
    | .ok i =>
      match decodeWordsFrom xlen (n + 1) ws with
      | .ok p => .ok (i :: p)
      | .error k e => .error k e
      | .unsettled => .unsettled
    | .error e => .error n e
    | .unsettled => .unsettled

/-! ### Canonical text (R85) -/

/-- A decimal digit character. -/
def decChar (d : Nat) : Char := Char.ofNat (0x30 + d)

/-- An upper-case hexadecimal digit character. -/
def hexChar (d : Nat) : Char := if d < 10 then Char.ofNat (0x30 + d) else Char.ofNat (0x41 + (d - 10))

/-- The decimal digits of `n` in front of `acc`; `fuel` bounds their number. -/
def decCharsFrom : Nat → Nat → List Char → List Char
  | 0, n, acc => decChar (n % 10) :: acc
  | fuel + 1, n, acc =>
    if n < 10 then decChar n :: acc else decCharsFrom fuel (n / 10) (decChar (n % 10) :: acc)

/-- LOAD's value in decimal, "with `-` if negative"; a value in range has at most `xlen` digits. -/
def valueText (xlen : Nat) (v : Int) : List Char :=
  if v < 0 then '-' :: decCharsFrom xlen v.natAbs [] else decCharsFrom xlen v.natAbs []

/-- A register as `R0` to `R3`. -/
def Reg.text (r : Reg) : List Char := ['R', decChar r.index]

/-- An address as `0x` and two upper-case hexadecimal digits. -/
def addrText (a : Addr) : List Char := ['0', 'x', hexChar (a.toNat / 16), hexChar (a.toNat % 16)]

/-- The operand tokens of an instruction's canonical text. -/
def Instr.operandTokens (xlen : Nat) : Instr → List (List Char)
  | .load d v => [d.text, valueText xlen v]
  | .store s a => [s.text, addrText a]
  | .add d s1 s2 => [d.text, s1.text, s2.text]
  | .sub d s1 s2 => [d.text, s1.text, s2.text]
  | .mul d s1 s2 => [d.text, s1.text, s2.text]
  | .div d s1 s2 => [d.text, s1.text, s2.text]
  | .rem d s1 s2 => [d.text, s1.text, s2.text]
  | .and d s1 s2 => [d.text, s1.text, s2.text]
  | .or d s1 s2 => [d.text, s1.text, s2.text]
  | .xor d s1 s2 => [d.text, s1.text, s2.text]
  | .shl d s1 s2 => [d.text, s1.text, s2.text]
  | .shr d s1 s2 => [d.text, s1.text, s2.text]
  | .not d s => [d.text, s.text]
  | .gt d s1 s2 => [d.text, s1.text, s2.text]
  | .lt d s1 s2 => [d.text, s1.text, s2.text]
  | .gte d s1 s2 => [d.text, s1.text, s2.text]
  | .lte d s1 s2 => [d.text, s1.text, s2.text]
  | .eq d s1 s2 => [d.text, s1.text, s2.text]
  | .neq d s1 s2 => [d.text, s1.text, s2.text]
  | .jmp a => [addrText a]
  | .jz s a => [s.text, addrText a]
  | .jnz s a => [s.text, addrText a]
  | .print s => [s.text]
  | .printMem a => [['M', 'E', 'M'], addrText a]
  | .halt => []

/-- Tokens joined by single spaces. -/
def joinTokens : List (List Char) → List Char
  | [] => []
  | [t] => t
  | t :: u :: ts => t ++ ' ' :: joinTokens (u :: ts)

/-- The canonical text of an instruction (R85). -/
def Instr.canonical (xlen : Nat) (i : Instr) : List Char := joinTokens (i.mnemonic.text :: i.operandTokens xlen)

/-- The cause codes of R161; "no rule of this spec depends on the numbers". `DivideByZero` is 1 (`Machine.Cause.code`). -/
def DecodeError.code : DecodeError → Nat
  | .emptyInstruction => 16
  | .unknownInstruction _ => 17
  | .unknownOpcode _ => 17
  | .arityError _ => 18
  | .invalidRegister => 19
  | .invalidAddress => 20
  | .invalidValue => 21
  | .invalidPrintOperand => 22
  | .reservedEncoding => 23

end Sys2Proof
end

