-- ==== Sys2Proof/Machine/Driver.lean ====
section
/-! DEFINITION. What the host may do to the core (spec 10_state.md R31, R32; 70_reset_and_hazards.md R181, R182, R184): attach
a program once, before execution, from records, from text or from packed words; run the cycle (`step`) or call `execute` until the stop;
or, in immediate mode, present one line at a time. Creating the core is `State.create`, decoding a line is `parse`; reading the state has no effect. -/

namespace Sys2Proof.Machine

/-- The cause code of R161. -/
def Cause.code : Cause → Nat
  | .divideByZero => 1

/-- No program is attached and nothing has executed: a program may be attached (R184: "once, before execution"). -/
def State.fresh (s : State) : Bool := decide (s = State.create s.cfg)

/-- `load_program` of R31: "it sets `program` and `PROGLEN` and changes nothing else". Every record must be well-formed
(R79, R182) and `PROGLEN` below `2^(XLEN-1)` (R6, D13). -/
def loadProgram (p : List Instr) (s : State) : Host.Outcome State Fault Refusal :=
  if s.fresh = false then .refused .notFresh
  else if p.all (fun i => i.wellFormed s.cfg.xlen) = false then .refused .illFormedRecord
  else if 2 ^ (s.cfg.xlen - 1) ≤ p.length then .refused .programTooLong
  else .next { s with program := p }

/-- The answer of a load or of a line: the state, and the error reported to the host, with the number of its line. -/
abbrev Report := State × Option (Nat × DecodeError)

/-- Attach a decoded program, or abort the whole load: "nothing is loaded and nothing executes" (R182). -/
def loadDecoded (d : DecodedProgram) (s : State) : Host.Outcome Report Fault Refusal :=
  match d with
  | .ok p =>
    match loadProgram p s with
    | .next t => .next (t, none)
    | .fault f => .fault f
    | .refused r => .refused r
  | .error n e => .next (s, some (n, e))
  | .unsettled => .refused .openLiteral

/-- A program-mode load from the lines of a program text (R76, R181). -/
def loadText (lines : List (List Char)) (s : State) : Host.Outcome Report Fault Refusal :=
  loadDecoded (parseProgram s.cfg.xlen lines) s

/-- A program-mode load from packed words (R182). A word has exactly `IW = 16 + XLEN` bits (R81) at the width of the core it
is loaded into, so no larger number can be given. -/
def loadWords (s : State) (ws : List (BitVec (16 + s.cfg.xlen))) : Host.Outcome Report Fault Refusal :=
  loadDecoded (decodeWordsFrom s.cfg.xlen 1 ws) s

/-- The instruction is one the host may have executed at a running core (R184): any in immediate mode, whose core never has a
program attached (R26), and in program mode `program[pc]` (DEDUCED, log entry 22). -/
def State.mayExecute (s : State) (i : Instr) : Bool := decide (s.program = []) || decide (s.fetch = some i)

/-- `execute` of R31: the state after the instruction, and the boolean "continue execution". The host calls it until the stop
and not after (R184), and once the status is not `Running` no instruction executes and the status stays (R29): a call at a
stopped core, on which N12 and U17 leave the host's conduct open, is the fault `notRunning` (DESIGN CHOICE, log entry 17). -/
def execute (i : Instr) (s : State) : Host.Outcome (State × Bool) Fault Refusal :=
  if s.status = .running then
    if s.mayExecute i then
      match exec i s with
      | .next t => .next (t, (stepResult s i).continues)
      | .fault f => .fault f
      | .refused r => .refused r
    else .refused .notHostsMove
  else .fault (.notRunning s.status)

/-- `execute` given an untyped record: a record that is not well-formed is refused (R79, D20, U5). A PRINT record is
dispatched on its operand 0 (R80, R150, R151). A well-formed one is given to `execute`, with its checks. -/
def executeRecord (r : Record) (s : State) : Host.Outcome (State × Bool) Fault Refusal :=
  match r.toInstr s.cfg.xlen with
  | some i => execute i s
  | none => .refused .illFormedRecord

/-- One line in immediate mode (R32): "each line is parsed and executed immediately"; a line that does not decode "reports an
error and leaves CPU state untouched". After a stop the model has no move for the host (U17; DESIGN CHOICE, log entry 17). In
program mode the host presents no lines (R184), so a core with a program attached refuses one (DEDUCED, log entry 22). -/
def immediate (line : List Char) (s : State) : Host.Outcome (State × Option DecodeError) Fault Refusal :=
  if s.status = .running then
    if s.program = [] then
      match parse s.cfg.xlen line with
      | .ok i =>
        match execute i s with
        | .next (t, _) => .next (t, none)
        | .fault f => .fault f
        | .refused r => .refused r
      | .error e => .next (s, some e)
      | .unsettled => .refused .openLiteral
    else .refused .notHostsMove
  else .fault (.notRunning s.status)

end Sys2Proof.Machine
end

