-- ==== Sys2Proof/Safety.lean ====
section
/-! DEFINITION. The terms the statements are written in: what an instruction leaves unchanged, what a correct result is in
the spec's own arithmetic (00_scope.md R9), and the invariants of a run (10_state.md R22, R25, R28, R33). -/

namespace Sys2Proof.Machine

/-! ### Frames -/

/-- Every register but `d` is unchanged. -/
def SameRegsBut (d : Reg) (s t : State) : Prop := ∀ r, r ≠ d → t.getReg r = s.getReg r

/-- Every register is unchanged. -/
def SameRegs (s t : State) : Prop := ∀ r, t.getReg r = s.getReg r

/-- Every memory cell reads as before. -/
def SameCells (s t : State) : Prop := ∀ a : Addr, t.readMem a = s.readMem a

/-- Every memory cell but `a` reads as before. -/
def SameCellsBut (a : Addr) (s t : State) : Prop := ∀ b : Addr, b ≠ a → t.readMem b = s.readMem b

/-- The loaded program and the parameters of the core are unchanged (R26, R48, R6). -/
def SameBuild (s t : State) : Prop := t.program = s.program ∧ t.cfg = s.cfg

/-- Run status and output trace are unchanged. -/
def SameOutputs (s t : State) : Prop := t.status = s.status ∧ t.trace = s.trace

/-- In `s` the instruction completes with step result `Continue`, its one effect a new value of `d` that meets `P`: every
other register, every memory cell, the program, the run status and the trace are unchanged, and `pc` advances by one
(at `MAX` and above too, where it is the model's choice: log entry 23). -/
def CompletesInto (i : Instr) (d : Reg) (s : State) (P : Int → Prop) : Prop :=
  ∃ t, exec i s = .next t ∧ P (t.getReg d) ∧ SameRegsBut d s t ∧ SameCells s t ∧ SameBuild s t ∧ SameOutputs s t ∧
    t.pc = s.pc + 1 ∧ stepResult s i = .cont

/-- In `s` the instruction completes, its one effect the new program counter `p`. -/
def MovesPcTo (i : Instr) (s : State) (p : Int) : Prop :=
  ∃ t, exec i s = .next t ∧ t.pc = p ∧ SameRegs s t ∧ SameCells s t ∧ SameBuild s t ∧ SameOutputs s t

/-- In `s` the instruction raises `DivideByZero` (R160): one fault event tagged with `pc`, the status `Faulted`, and no
register, no cell and not `pc` changes. -/
def RaisesDivideByZero (i : Instr) (s : State) : Prop :=
  ∃ t, exec i s = .next t ∧ stepResult s i = .faulted .divideByZero ∧ t.status = .faulted .divideByZero ∧
    t.trace = s.trace ++ [.fault .divideByZero s.pc] ∧ t.pc = s.pc ∧ SameRegs s t ∧ SameCells s t ∧ SameBuild s t

/-- The register an instruction writes (R21): the destination operand of LOAD, ADD to NEQ and NOT. -/
def dest : Instr → Option Reg
  | .load d _ => some d
  | .add d _ _ => some d
  | .sub d _ _ => some d
  | .mul d _ _ => some d
  | .div d _ _ => some d
  | .rem d _ _ => some d
  | .and d _ _ => some d
  | .or d _ _ => some d
  | .xor d _ _ => some d
  | .shl d _ _ => some d
  | .shr d _ _ => some d
  | .not d _ => some d
  | .gt d _ _ => some d
  | .lt d _ _ => some d
  | .gte d _ _ => some d
  | .lte d _ _ => some d
  | .eq d _ _ => some d
  | .neq d _ _ => some d
  | .store _ _ => none
  | .jmp _ => none
  | .jz _ _ => none
  | .jnz _ _ => none
  | .print _ => none
  | .printMem _ => none
  | .halt => none

/-- The registers an instruction reads (R21): the source operands of ADD to NEQ and NOT, and the register operand of STORE, JZ,
JNZ and the register form of PRINT. -/
def sources : Instr → List Reg
  | .load _ _ => []
  | .store r _ => [r]
  | .add _ a b => [a, b]
  | .sub _ a b => [a, b]
  | .mul _ a b => [a, b]
  | .div _ a b => [a, b]
  | .rem _ a b => [a, b]
  | .and _ a b => [a, b]
  | .or _ a b => [a, b]
  | .xor _ a b => [a, b]
  | .shl _ a b => [a, b]
  | .shr _ a b => [a, b]
  | .not _ a => [a]
  | .gt _ a b => [a, b]
  | .lt _ a b => [a, b]
  | .gte _ a b => [a, b]
  | .lte _ a b => [a, b]
  | .eq _ a b => [a, b]
  | .neq _ a b => [a, b]
  | .jmp _ => []
  | .jz r _ => [r]
  | .jnz r _ => [r]
  | .print r => [r]
  | .printMem _ => []
  | .halt => []

/-- The jump-class instructions and their target (R23, R143). -/
def jumpTarget : Instr → Option Addr
  | .jmp a => some a
  | .jz _ a => some a
  | .jnz _ a => some a
  | .load _ _ => none
  | .store _ _ => none
  | .add _ _ _ => none
  | .sub _ _ _ => none
  | .mul _ _ _ => none
  | .div _ _ _ => none
  | .rem _ _ _ => none
  | .and _ _ _ => none
  | .or _ _ _ => none
  | .xor _ _ _ => none
  | .shl _ _ _ => none
  | .shr _ _ _ => none
  | .not _ _ => none
  | .gt _ _ _ => none
  | .lt _ _ _ => none
  | .gte _ _ _ => none
  | .lte _ _ _ => none
  | .eq _ _ _ => none
  | .neq _ _ _ => none
  | .print _ => none
  | .printMem _ => none
  | .halt => none

/-! ### The spec's arithmetic -/

/-- `v` is `wrap(n)` (R9): the integer in `[MIN, MAX]` congruent to `n` modulo `2^XLEN`. -/
def IsWrap (xlen : Nat) (n : Int) (v : Int) : Prop :=
  InRange xlen v ∧ ∃ k : Int, v = n + k * (2 : Int) ^ xlen

/-- `q` and `r` are quotient and remainder of `x` by `y`, the quotient rounded toward zero (R116). -/
def TruncatedDivision (x y q r : Int) : Prop :=
  x = q * y + r ∧ r.natAbs < y.natAbs ∧ (0 < r → 0 < x) ∧ (r < 0 → x < 0)

/-- The same with the quotient rounded toward minus infinity (D5's alternative). -/
def FlooredDivision (x y q r : Int) : Prop :=
  x = q * y + r ∧ r.natAbs < y.natAbs ∧ (0 < r → 0 < y) ∧ (r < 0 → y < 0)

/-- Bit `k` of the two's-complement pattern of a value (R8, R9): the parity of `floor(v / 2^k)`. -/
def bitOf (v : Int) (k : Nat) : Bool := decide (v / (2 : Int) ^ k % 2 = 1)

/-! ### Programs of several instructions -/

/-- The instructions of a list executed one after another, none where one of them gives no next state. -/
def execAll : List Instr → State → Option State
  | [], s => some s
  | i :: is, s =>
    match exec i s with
    | .next t => execAll is t
    | .fault _ => none
    | .refused _ => none

/-! ### Text, as the spec describes it -/

/-- The character is a decimal digit of value `v` (R71). -/
def DecDigitIs (c : Char) (v : Nat) : Prop := ['0', '1', '2', '3', '4', '5', '6', '7', '8', '9'][v]? = some c

/-- The character is a hexadecimal digit of value `v`, in either case (R70). -/
def HexDigitIs (c : Char) (v : Nat) : Prop :=
  ['0', '1', '2', '3', '4', '5', '6', '7', '8', '9', 'A', 'B', 'C', 'D', 'E', 'F'][v]? = some c ∨
    ['0', '1', '2', '3', '4', '5', '6', '7', '8', '9', 'a', 'b', 'c', 'd', 'e', 'f'][v]? = some c

/-- The characters, one or more of them, spell `n` in the base, most significant digit first (R70, R71). -/
def Spells (base : Nat) (digit : Char → Nat → Prop) (cs : List Char) (n : Nat) : Prop :=
  cs ≠ [] ∧ ∃ vs : List Nat, List.Forall₂ digit cs vs ∧ Nat.ofDigits base vs.reverse = n

/-- The text is white space and the tokens in turn, each a maximal run of other characters (R60, R61). -/
inductive Splits : List Char → List (List Char) → Prop where
  | done (gap : List Char) (hg : ∀ c ∈ gap, isSpace c = true) : Splits gap []
  | token (gap tok rest : List Char) (toks : List (List Char)) (hg : ∀ c ∈ gap, isSpace c = true) (hne : tok ≠ [])
      (ht : ∀ c ∈ tok, isSpace c = false) (hr : ∀ c, rest.head? = some c → isSpace c = true) (h : Splits rest toks) :
      Splits (gap ++ tok ++ rest) (tok :: toks)

/-- The required token counts of R63, mnemonic included; PRINT has two. -/
def tokenCounts : Mnemonic → List Nat
  | .load => [3]
  | .store => [3]
  | .not => [3]
  | .jmp => [2]
  | .jz => [3]
  | .jnz => [3]
  | .print => [2, 3]
  | .halt => [1]
  | .add | .sub | .mul | .div | .rem | .and | .or | .xor | .shl | .shr
  | .gt | .lt | .gte | .lte | .eq | .neq => [4]

/-! ### Invariants -/

/-- The value an event shows lies in range. -/
def Event.InRange (xlen : Nat) : Event → Prop
  | .showReg _ v => Sys2Proof.InRange xlen v
  | .showMem _ v => Sys2Proof.InRange xlen v
  | .fault _ _ => True

/-- Every value the core holds or has shown is an `XLEN`-bit signed integer, the memory has its canonical form, every
loaded record is well-formed, and the width can be built (R9, R20, R25, R26, R79; log entry 3 for the width). -/
structure State.DataOk (s : State) : Prop where
  width : s.cfg.WellFormed
  regs : ∀ r, InRange s.cfg.xlen (s.getReg r)
  canonical : s.mem.wf = true
  cells : ∀ c ∈ s.mem, InRange s.cfg.xlen c.2
  program : ∀ i ∈ s.program, i.wellFormed s.cfg.xlen = true
  events : ∀ e ∈ s.trace, e.InRange s.cfg.xlen

/-- "Every value it takes is in `0 .. max(PROGLEN, 255)`" (R22), with `PROGLEN < 2^(XLEN-1)` (R6). -/
structure State.PcOk (s : State) : Prop where
  low : 0 ≤ s.pc
  high : s.pc ≤ max (s.proglen : Int) 255
  bound : s.proglen < 2 ^ (s.cfg.xlen - 1)

/-- The trace holds a fault event exactly when the run has faulted, and then as its last event, once, with the cause of the
status and the program counter the run stopped at (R28, R160, R166). -/
def State.FaultOk (s : State) : Prop :=
  match s.status with
  | .faulted c => ∃ es, s.trace = es ++ [.fault c s.pc] ∧ ∀ d p, Event.fault d p ∉ es
  | .running | .halted | .ended => ∀ d p, Event.fault d p ∉ s.trace

/-- The invariant of a program-mode run. -/
structure State.Inv (s : State) : Prop where
  data : s.DataOk
  pc : s.PcOk
  fault : s.FaultOk

end Sys2Proof.Machine
end

