-- ==== Sys2Proof/Certificates/Slice0/Obligations.lean ====
section
/-! DEFINITION. The statements about this model, for the provers. Each docstring names the rule of the spec it rests on. -/

open Sys2Proof Sys2Proof.Machine

/-! ## Encoding and decoding: words and records -/

/-- R85: `pack` maps every well-formed record to a word, and the word decoder maps that word back to the same record, at every
width that has room for an address (R83). -/
def Obligations.EncodedInstructionDecodesToItself : Prop :=
  ∀ (xlen : Nat) (i : Instr), 8 ≤ xlen → i.wellFormed xlen = true → decodeWord xlen (encode xlen i) = .ok i

/-- R85: every valid word is the `pack` of exactly one well-formed record. -/
def Obligations.ValidWordIsTheEncodingOfItsInstruction : Prop :=
  ∀ (xlen : Nat) (w : BitVec (16 + xlen)) (i : Instr),
    decodeWord xlen w = .ok i → i.wellFormed xlen = true ∧ encode xlen i = w ∧
      ∀ j, j.wellFormed xlen = true → encode xlen j = w → 8 ≤ xlen → j = i

/-- R84: the four checks in their order, over the bit fields of R81, and the format's unused fields of R83. -/
def Obligations.WordDecoderChecksInOrder : Prop :=
  ∀ (xlen : Nat) (w : BitVec (16 + xlen)),
    let op := (w.extractLsb' 0 5).toNat
    let a := (w.extractLsb' 5 2).toNat
    let b := (w.extractLsb' 7 2).toNat
    let c := (w.extractLsb' 9 2).toNat
    let m := (w.extractLsb' 11 1).toNat
    let z := (w.extractLsb' 12 4).toNat
    let imm := (w.extractLsb' 16 xlen).toNat
    let hasAddr := op = 1 ∨ op = 19 ∨ op = 20 ∨ op = 21 ∨ (op = 22 ∧ m = 1)
    let threeRegs := (2 ≤ op ∧ op ≤ 11) ∨ (13 ≤ op ∧ op ≤ 18)
    let reserved := z ≠ 0 ∨ (m = 1 ∧ op ≠ 22) ∨ ((op = 19 ∨ op = 23 ∨ (op = 22 ∧ m = 1)) ∧ a ≠ 0) ∨
      (¬ (threeRegs ∨ op = 12) ∧ b ≠ 0) ∨ (¬ threeRegs ∧ c ≠ 0) ∨ (¬ (op = 0 ∨ hasAddr) ∧ imm ≠ 0)
    (24 ≤ op → decodeWord xlen w = .error (.unknownOpcode op)) ∧
    (op < 24 → hasAddr → 255 < imm → decodeWord xlen w = .error .invalidAddress) ∧
    (op < 24 → ¬ (hasAddr ∧ 255 < imm) → reserved → decodeWord xlen w = .error .reservedEncoding) ∧
    (op < 24 → ¬ (hasAddr ∧ 255 < imm) → ¬ reserved →
      ∃ i, decodeWord xlen w = .ok i ∧ i.mnemonic.opcode = op ∧ encode xlen i = w)

/-- R86: a word is a row's instruction exactly when `w AND mask = match`. The row of PRINT MEM is the one with `m` = 1. -/
def Obligations.MaskAndMatchSelectTheRow : Prop :=
  ∀ (xlen : Nat) (w : BitVec (16 + xlen)) (k : Mnemonic) (m : Nat), 8 ≤ xlen → (m = 0 ∨ (m = 1 ∧ k = .print)) →
    (matchesRow xlen w k m = true ↔ ∃ i, decodeWord xlen w = .ok i ∧ i.mnemonic = k ∧ i.form = m)

/-- Sanity, R83: words of the spec (95_test_vectors.md section 4 and S3 to S8) and the instructions they stand for. -/
def Obligations.SpecWordsDecode : Prop :=
  decodeWord 64 0x000000000000000A0020 = .ok (.load .r1 10) ∧
  decodeWord 64 0x000000000000001A0041 = .ok (.store .r2 26) ∧
  decodeWord 64 0x00000000000000000722 = .ok (.add .r1 .r2 .r3) ∧
  decodeWord 64 0x0000000000000000002C = .ok (.not .r1 .r0) ∧
  decodeWord 64 0x0000000000000000024D = .ok (.gt .r2 .r0 .r1) ∧
  decodeWord 64 0x000000000000007F0075 = .ok (.jnz .r3 127) ∧
  decodeWord 64 0x00000000000000000016 = .ok (.print .r0) ∧
  decodeWord 64 0x00000000000000400816 = .ok (.printMem 64) ∧
  decodeWord 64 0x00000000000000000018 = .error (.unknownOpcode 24) ∧
  decodeWord 64 0x00000000000001000001 = .error .invalidAddress ∧
  decodeWord 64 0x0000000000000000022C = .error .reservedEncoding

/-- R79: a record is well-formed exactly when it is the record of a well-formed instruction, and that instruction is the one
the record is read as. -/
def Obligations.WellFormedRecordsAreTypedInstructions : Prop :=
  ∀ (xlen : Nat) (r : Record),
    (r.wellFormed xlen = true ↔ ∃ i, r.toInstr xlen = some i) ∧
    ∀ i, r.toInstr xlen = some i ↔ (i.wellFormed xlen = true ∧ i.record = r)

/-- R80: among PRINT records, operand 0 is `-1` exactly in the register form. -/
def Obligations.PrintSentinelSelectsTheRegisterForm : Prop :=
  ∀ i : Instr, i.record.tag = .print → (i.record.operands.head? = some (-1) ↔ ∃ r, i = .print r)

/-! ## Decoding text -/

/-- R60, R61: the tokens of a line are the maximal runs of characters that are not one of the six ASCII white-space characters,
up to the first `;`. -/
def Obligations.TokensAreMaximalRuns : Prop :=
  (∀ line toks, Splits (line.takeWhile fun c => c != ';') toks ↔ tokens line = toks) ∧
  ∀ c : Char, isSpace c = true ↔ c ∈ [' ', '\t', '\n', Char.ofNat 0x0B, Char.ofNat 0x0C, '\r']

/-- R60: what follows the first `;` is ignored, and a line with nothing else than white space before it is `EmptyInstruction`,
as no other line is. -/
def Obligations.CommentsAndBlankLines : Prop :=
  ∀ (xlen : Nat) (line rest : List Char),
    parse xlen (line ++ ';' :: rest) = parse xlen line ∧
    (parse xlen line = .error .emptyInstruction ↔ ∀ c ∈ line.takeWhile (fun c => c != ';'), isSpace c = true)

/-- R62: a first token that is not, character for character, one of the 24 mnemonics is `UnknownInstruction(token 0)`, before
any other check; a first token in the vocabulary never is. -/
def Obligations.UnknownMnemonicIsReportedFirst : Prop :=
  ∀ (xlen : Nat) (line t : List Char) (ops : List (List Char)), tokens line = t :: ops →
    (parse xlen line = .error (.unknownInstruction t) ↔ ∀ k : Mnemonic, k.text ≠ t)

/-- R64: once the mnemonic is recognised, a token count other than the one of R63 is `ArityError(mnemonic)`, whatever the
operand tokens contain. -/
def Obligations.ArityErrorsTakePrecedence : Prop :=
  ∀ (xlen : Nat) (line : List Char) (k : Mnemonic) (ops : List (List Char)), tokens line = k.text :: ops →
    (ops.length + 1 ∉ tokenCounts k → parse xlen line = .error (.arityError k)) ∧
    (ops.length + 1 ∈ tokenCounts k → k ≠ .print → ∀ j, parse xlen line ≠ .error (.arityError j))

/-- R72: PRINT's dual grammar, for a line whose token 0 is `PRINT`. -/
def Obligations.PrintGrammar : Prop :=
  ∀ (xlen : Nat) (line : List Char) (ops : List (List Char)), tokens line = Mnemonic.print.text :: ops →
    (ops.length = 0 ∨ 2 < ops.length → parse xlen line = .error (.arityError .print)) ∧
    (∀ t, ops = [['M', 'E', 'M'], t] → (∀ a, addressToken t = .ok a → parse xlen line = .ok (.printMem a)) ∧
      (addressToken t = .error .invalidAddress → parse xlen line = .error .invalidAddress)) ∧
    (ops = [['M', 'E', 'M']] → parse xlen line = .error (.arityError .print)) ∧
    (∀ cs, ops = ['R' :: cs] → (∀ r, registerToken ('R' :: cs) = .ok r → parse xlen line = .ok (.print r)) ∧
      (registerToken ('R' :: cs) = .error .invalidRegister → parse xlen line = .error .invalidRegister)) ∧
    (∀ cs t, ops = ['R' :: cs, t] → parse xlen line = .error (.arityError .print)) ∧
    (∀ t ts, ops = t :: ts → ts.length ≤ 1 → t ≠ ['M', 'E', 'M'] → t.head? ≠ some 'R' →
      parse xlen line = .error .invalidPrintOperand)

/-- R68: the four register tokens, and no other. -/
def Obligations.RegisterTokensAreR0ToR3 : Prop :=
  registerToken ['R', '0'] = .ok .r0 ∧ registerToken ['R', '1'] = .ok .r1 ∧ registerToken ['R', '2'] = .ok .r2 ∧
  registerToken ['R', '3'] = .ok .r3 ∧
  ∀ tok, tok ∉ [['R', '0'], ['R', '1'], ['R', '2'], ['R', '3']] → registerToken tok = .error .invalidRegister

/-- R70: an address token is `0x` or `0X` and hexadecimal digits of either case, one or more, that spell 0 to 255; every other
token is `InvalidAddress`. -/
def Obligations.AddressTokensAreHexBytes : Prop :=
  ∀ tok : List Char,
    (∀ a : Addr, addressToken tok = .ok a ↔
      ∃ x cs, tok = '0' :: x :: cs ∧ (x = 'x' ∨ x = 'X') ∧ Spells 16 HexDigitIs cs a.toNat) ∧
    (addressToken tok = .error .invalidAddress ↔ ∀ a, addressToken tok ≠ .ok a)

/-- R71: LOAD's literal is an optional `-` and decimal digits, one or more, that spell a number in `[MIN, MAX]`; a leading `+`
is given no meaning; every other token is `InvalidValue`. That this holds of every token with a leading `+`, whatever follows
it, is the model's reading (DEDUCED, log entry 12). -/
def Obligations.ValueTokensAreSignedDecimals : Prop :=
  ∀ (xlen : Nat) (tok : List Char),
    (∀ v : Int, valueToken xlen tok = .ok v ↔ InRange xlen v ∧
      ((∃ n, Spells 10 DecDigitIs tok n ∧ v = n) ∨ ∃ cs n, tok = '-' :: cs ∧ Spells 10 DecDigitIs cs n ∧ v = -(n : Int))) ∧
    (valueToken xlen tok = .unsettled ↔ tok.head? = some '+') ∧
    (valueToken xlen tok = .error .invalidValue ↔ tok.head? ≠ some '+' ∧ ∀ v, valueToken xlen tok ≠ .ok v)

/-- R79: "the decoder delivers only well-formed records", at the text level and at the word level. -/
def Obligations.DecodersDeliverWellFormedInstructions : Prop :=
  ∀ (xlen : Nat) (i : Instr),
    (∀ line, parse xlen line = .ok i → i.wellFormed xlen = true) ∧
    (∀ w, decodeWord xlen w = .ok i → i.wellFormed xlen = true)

/-- R85: decoding the canonical text of a well-formed record gives back the record. -/
def Obligations.CanonicalTextDecodesToItsInstruction : Prop :=
  ∀ (xlen : Nat) (i : Instr), i.wellFormed xlen = true → parse xlen (i.canonical xlen) = .ok i

/-- R76: a program text decodes exactly when every line that is not an `EmptyInstruction` decodes; such a line takes no slot,
so `program[i]` is the `i`-th other line. -/
def Obligations.ProgramArraySkipsEmptyLines : Prop :=
  ∀ (xlen : Nat) (lines : List (List Char)) (p : List Instr),
    parseProgram xlen lines = .ok p ↔
      (lines.map (parse xlen)).filter (fun x => x ≠ .error .emptyInstruction) = p.map .ok

/-- R164, R165, R182: one malformed line or invalid word anywhere, and nothing is loaded: the core is left as it was, and the
first bad line or word is reported (numbered from 1: the model's choice, log entry 15). -/
def Obligations.MalformedProgramLoadsNothing : Prop :=
  (∀ (s : State) (before after : List (List Char)) (line : List Char) (e : DecodeError),
    parse s.cfg.xlen line = .error e → e ≠ .emptyInstruction →
    (∀ l ∈ before, (∃ i, parse s.cfg.xlen l = .ok i) ∨ parse s.cfg.xlen l = .error .emptyInstruction) →
    loadText (before ++ line :: after) s = .next (s, some (before.length + 1, e))) ∧
  ∀ (s : State) (before after : List (BitVec (16 + s.cfg.xlen))) (w : BitVec (16 + s.cfg.xlen)) (e : DecodeError),
    decodeWord s.cfg.xlen w = .error e → (∀ x ∈ before, ∃ i, decodeWord s.cfg.xlen x = .ok i) →
    loadWords s (before ++ w :: after) = .next (s, some (before.length + 1, e))

/-- R31, R181: a program text whose lines all decode is attached to a core just created, and nothing else changes; the loaded
core meets the invariant of a run and starts at index 0 (widths from 9: DEDUCED, log entry 3). -/
def Obligations.LoadedCoreMeetsTheInvariant : Prop :=
  ∀ (c : Config) (lines : List (List Char)) (p : List Instr), c.WellFormed → parseProgram c.xlen lines = .ok p →
    p.length < 2 ^ (c.xlen - 1) →
    ∃ t, loadText lines (State.create c) = .next (t, none) ∧ t = { State.create c with program := p } ∧ t.Inv

/-! ## Reset -/

/-- R33: every register 0, every cell 0, `pc` 0, no program, `Running`, no event; whatever the parameters, and at the
defaults of R6 for `State.reset`. -/
def Obligations.ResetStateIsAllZero : Prop :=
  (∀ c : Config, (∀ r, (State.create c).getReg r = 0) ∧ (∀ a : Addr, (State.create c).readMem a = 0) ∧
    (State.create c).pc = 0 ∧ (State.create c).program = [] ∧ (State.create c).status = .running ∧
    (State.create c).trace = []) ∧
  State.reset = State.create Config.standard

/-- The invariant of a run holds at reset, for every width that can be built (from 9: DEDUCED, log entry 3). -/
def Obligations.InvariantHoldsAtReset : Prop :=
  (∀ c : Config, c.WellFormed → (State.create c).Inv) ∧ State.reset.Inv

/-! ## The cycle -/

/-- R30: a running core whose `pc` is an index of the program executes the instruction there. -/
def Obligations.StepRunsTheFetchedInstruction : Prop :=
  ∀ (s : State) (i : Instr), s.status = .running → 0 ≤ s.pc → s.program[s.pc.toNat]? = some i → step s = exec i s

/-- A word that decodes to a well-formed instruction, placed where the next step fetches, is the instruction that step runs.
The placing is the model's (DESIGN CHOICE, log entry 10). -/
def Obligations.PlacedWordIsTheOneThatRuns : Prop :=
  ∀ (s : State) (i : Instr) (n : Nat), 8 ≤ s.cfg.xlen → i.wellFormed s.cfg.xlen = true → 16 + s.cfg.xlen ≤ n →
    step (s.withFetchWord n (encode s.cfg.xlen i).toNat) = exec i (s.withFetchWord n (encode s.cfg.xlen i).toNat)

/-- R30, R145: a running core whose `pc` is outside the program ends its run, and nothing else changes (in a step of
its own: DEDUCED, log entry 11). -/
def Obligations.StepOutsideTheProgramEndsTheRun : Prop :=
  ∀ s : State, s.status = .running → (s.pc < 0 ∨ (s.proglen : Int) ≤ s.pc) →
    ∃ t, step s = .next t ∧ t.status = .ended ∧ t.pc = s.pc ∧ t.trace = s.trace ∧ SameRegs s t ∧ SameCells s t ∧
      SameBuild s t

/-- R29, R30, R184: once the status is not `Running` no step is possible and no instruction executes, neither by `execute` nor
by a line nor from a record, so the status never changes again; and whatever a step goes on from was `Running`. That the model
then stops with the fault `notRunning` is its choice (log entries 8 and 17). -/
def Obligations.StoppedCoreTakesNoStep : Prop :=
  (∀ s : State, s.status ≠ .running → step s = .fault (.notRunning s.status) ∧
    (∀ i, execute i s = .fault (.notRunning s.status)) ∧ (∀ line, immediate line s = .fault (.notRunning s.status)) ∧
    ∀ r x, executeRecord r s ≠ .next x) ∧
  ∀ s t : State, step s = .next t → s.status = .running

/-- R23: the next program counter, by the step result. (`pc + 1` at `MAX` and above: the model's choice, log entry 23.) -/
def Obligations.NextProgramCounter : Prop :=
  ∀ (i : Instr) (s t : State), exec i s = .next t →
    (stepResult s i = .cont → t.pc = s.pc + 1) ∧
    (stepResult s i = .taken → ∃ a : Addr, jumpTarget i = some a ∧ t.pc = a.toNat) ∧
    (stepResult s i = .halted → t.pc = s.pc ∧ i = .halt) ∧
    (∀ c, stepResult s i = .faulted c → t.pc = s.pc ∧ ∃ d a b, i = .div d a b ∨ i = .rem d a b)

/-- R29, R31: at a running core `execute` applies the instruction's rule and answers the boolean "continue execution", with the
run status the step result gives. Which instructions the host may have executed there (R184) is DEDUCED (log entry 22): any
without a program, and `program[pc]` with one. -/
def Obligations.StatusFollowsTheStepResult : Prop :=
  ∀ (i : Instr) (s : State), s.status = .running →
    (∀ t b, execute i s = .next (t, b) → exec i s = .next t ∧ t.status = (stepResult s i).status ∧
      (b = true ↔ t.status = .running) ∧ (b = false ↔ t.status = .halted ∨ t.status = .faulted .divideByZero)) ∧
    (s.program = [] ∨ s.fetch = some i → ∀ t, exec i s = .next t → ∃ b, execute i s = .next (t, b)) ∧
    (s.program ≠ [] → s.fetch ≠ some i → execute i s = .refused .notHostsMove)

/-- R26, R48: no step changes the loaded program, nor the parameters of the core; so the instruction fetched at an index is the
same all along a run. -/
def Obligations.ProgramStoreIsNeverWritten : Prop :=
  ∀ (k : Nat) (s t : State), Sys2Proof.core.run k s = .next t → SameBuild s t

/-! ## Data movement -/

/-- R100: LOAD writes its literal, at every register and every literal in `[MIN, MAX]`. -/
def Obligations.LoadWritesItsLiteral : Prop :=
  ∀ (s : State) (d : Reg) (v : Int), InRange s.cfg.xlen v → CompletesInto (.load d v) d s (fun x => x = v)

/-- The model's choice (log entry 9) among the two D20 leaves: a record that is not well-formed is refused, whatever its tag;
so is a LOAD whose literal is outside `[MIN, MAX]`, the one such record the typed instructions leave. -/
def Obligations.IllFormedRecordsAreRefused : Prop :=
  (∀ (s : State) (r : Record), r.wellFormed s.cfg.xlen = false → executeRecord r s = .refused .illFormedRecord) ∧
  ∀ (s : State) (d : Reg) (v : Int), ¬ InRange s.cfg.xlen v → exec (.load d v) s = .refused .illFormedRecord

/-- R101: STORE puts the register's whole value into the cell at its literal address; no other cell and no register changes.
(`pc + 1` at `MAX` and above: log entry 23.) -/
def Obligations.StoreWritesOneCell : Prop :=
  ∀ (s : State) (r : Reg) (a : Addr), s.mem.wf = true →
    ∃ t, exec (.store r a) s = .next t ∧ t.readMem a = s.getReg r ∧ SameCellsBut a s t ∧ SameRegs s t ∧ SameBuild s t ∧
      SameOutputs s t ∧ t.pc = s.pc + 1

/-- R50 (a): a cell holds the value of the latest earlier STORE to it in execution order; with no such STORE it reads as
before, that is 0 since reset. -/
def Obligations.CellHoldsTheLatestStore : Prop :=
  (∀ (s u t : State) (before after : List Instr) (r : Reg) (a : Addr), s.mem.wf = true →
    execAll before s = some u → execAll (before ++ .store r a :: after) s = some t → (∀ q, Instr.store q a ∉ after) →
    t.readMem a = u.getReg r) ∧
  (∀ (s t : State) (is : List Instr) (a : Addr), execAll is s = some t → (∀ q, Instr.store q a ∉ is) →
    t.readMem a = s.readMem a) ∧
  ∀ (c : Config) (a : Addr), (State.create c).readMem a = 0

/-! ## Arithmetic -/

/-- R115: ADD, SUB and MUL write the exact result wrapped into `[MIN, MAX]`, for every destination and sources; overflow is
recorded nowhere. -/
def Obligations.ArithmeticWraps : Prop :=
  ∀ (s : State) (d a b : Reg),
    CompletesInto (.add d a b) d s (IsWrap s.cfg.xlen (s.getReg a + s.getReg b)) ∧
    CompletesInto (.sub d a b) d s (IsWrap s.cfg.xlen (s.getReg a - s.getReg b)) ∧
    CompletesInto (.mul d a b) d s (IsWrap s.cfg.xlen (s.getReg a * s.getReg b))

/-- R116: division by a nonzero divisor truncates toward zero, the remainder has the dividend's sign, the quotient is exact but
for `MIN / -1`, which gives `MIN` and remainder 0; a zero divisor is a runtime fault. -/
def Obligations.DivisionTruncates : Prop :=
  ∀ (s : State) (d a b : Reg), s.cfg.divRounding = .truncate → 0 < s.cfg.xlen →
    InRange s.cfg.xlen (s.getReg a) → InRange s.cfg.xlen (s.getReg b) →
    (s.getReg b = 0 → RaisesDivideByZero (.div d a b) s ∧ RaisesDivideByZero (.rem d a b) s) ∧
    (s.getReg b ≠ 0 → ∃ q r, TruncatedDivision (s.getReg a) (s.getReg b) q r ∧
      CompletesInto (.rem d a b) d s (fun v => v = r) ∧
      (¬ (s.getReg a = minValue s.cfg.xlen ∧ s.getReg b = -1) → CompletesInto (.div d a b) d s (fun v => v = q)) ∧
      (s.getReg a = minValue s.cfg.xlen → s.getReg b = -1 → r = 0 ∧
        CompletesInto (.div d a b) d s (fun v => v = minValue s.cfg.xlen)))

/-- D5's alternative: under `DIV_ROUNDING = floor` the quotient is rounded toward minus infinity and the remainder has the
divisor's sign. The rounding is the spec's named alternative; that it wraps as the default does is the model's choice (log
entry 5). -/
def Obligations.DivisionFloors : Prop :=
  ∀ (s : State) (d a b : Reg), s.cfg.divRounding = .floor → s.getReg b ≠ 0 →
    ∃ q r, FlooredDivision (s.getReg a) (s.getReg b) q r ∧ CompletesInto (.rem d a b) d s (fun v => v = r) ∧
      CompletesInto (.div d a b) d s (IsWrap s.cfg.xlen q)

/-- U4: results for non-negative operands do not depend on `DIV_ROUNDING`. -/
def Obligations.NonNegativeDivisionIgnoresTheRounding : Prop :=
  ∀ (s : State) (d a b : Reg), 0 < s.cfg.xlen → InRange s.cfg.xlen (s.getReg a) → 0 ≤ s.getReg a → 0 < s.getReg b →
    CompletesInto (.div d a b) d s (fun v => v = s.getReg a / s.getReg b) ∧
    CompletesInto (.rem d a b) d s (fun v => v = s.getReg a % s.getReg b)

/-- R160: `DivideByZero` is raised by DIV and REM with a zero divisor, with exactly these effects, and by no other instruction;
no instruction after the faulting one executes. -/
def Obligations.DivideByZeroIsTheOnlyFault : Prop :=
  (∀ (s : State) (d a b : Reg), s.getReg b = 0 →
    RaisesDivideByZero (.div d a b) s ∧ RaisesDivideByZero (.rem d a b) s) ∧
  (∀ (i : Instr) (s t : State) (c : Cause), exec i s = .next t →
    (stepResult s i = .faulted c ∨ ∃ p, t.trace = s.trace ++ [.fault c p]) →
    ∃ d a b, (i = .div d a b ∨ i = .rem d a b) ∧ s.getReg b = 0) ∧
  (∀ (s t : State) (c : Cause), s.status = .faulted c → step s ≠ .next t)

/-! ## Logic and shifts -/

/-- R126: AND, OR, XOR and NOT act on each bit of the two's-complement patterns, with the integer readings the rule lists, and
never fault. -/
def Obligations.BitwiseActsOnEveryBit : Prop :=
  ∀ (s : State) (d a b : Reg), 0 < s.cfg.xlen → InRange s.cfg.xlen (s.getReg a) → InRange s.cfg.xlen (s.getReg b) →
    CompletesInto (.and d a b) d s (fun v => InRange s.cfg.xlen v ∧
      (∀ k, k < s.cfg.xlen → bitOf v k = (bitOf (s.getReg a) k && bitOf (s.getReg b) k)) ∧
      (s.getReg b = -1 → v = s.getReg a)) ∧
    CompletesInto (.or d a b) d s (fun v => InRange s.cfg.xlen v ∧
      (∀ k, k < s.cfg.xlen → bitOf v k = (bitOf (s.getReg a) k || bitOf (s.getReg b) k)) ∧
      (s.getReg b = 0 → v = s.getReg a)) ∧
    CompletesInto (.xor d a b) d s (fun v => InRange s.cfg.xlen v ∧
      (∀ k, k < s.cfg.xlen → bitOf v k = (bitOf (s.getReg a) k ^^ bitOf (s.getReg b) k)) ∧
      (s.getReg b = s.getReg a → v = 0) ∧ (s.getReg b = -1 → v = -s.getReg a - 1)) ∧
    CompletesInto (.not d a) d s (fun v => InRange s.cfg.xlen v ∧
      (∀ k, k < s.cfg.xlen → bitOf v k = !bitOf (s.getReg a) k) ∧ v = -s.getReg a - 1)

/-- R127, U1: at the defaults the count is the amount's pattern modulo `XLEN`, SHL fills with zeros and SHR copies the sign bit.
For an amount in `0 .. XLEN-1` no policy of `SHIFT_AMOUNT` changes a result, whatever the value, and for a non-negative value
`SHR_KIND` does not either. No shift faults: under every policy it completes, with status and trace unchanged. That no policy
faults is the model's reading (DEDUCED, log entry 4), which leaves out D3's faulting one. -/
def Obligations.ShiftLaws : Prop :=
  ∀ (s : State) (d a b : Reg), 0 < s.cfg.xlen → InRange s.cfg.xlen (s.getReg a) → InRange s.cfg.xlen (s.getReg b) →
    let n := (s.getReg b % 2 ^ s.cfg.xlen).toNat % s.cfg.xlen
    (s.cfg.shiftAmount = .modXlen → CompletesInto (.shl d a b) d s (IsWrap s.cfg.xlen (s.getReg a * 2 ^ n))) ∧
    (s.cfg.shiftAmount = .modXlen → s.cfg.shrKind = .arithmetic →
      CompletesInto (.shr d a b) d s (fun v => v = s.getReg a / 2 ^ n)) ∧
    (0 ≤ s.getReg b → s.getReg b < s.cfg.xlen →
      CompletesInto (.shl d a b) d s (IsWrap s.cfg.xlen (s.getReg a * 2 ^ (s.getReg b).toNat)) ∧
      (s.cfg.shrKind = .arithmetic → CompletesInto (.shr d a b) d s (fun v => v = s.getReg a / 2 ^ (s.getReg b).toNat)) ∧
      (s.cfg.shrKind = .logical → CompletesInto (.shr d a b) d s
        (IsWrap s.cfg.xlen (s.getReg a % 2 ^ s.cfg.xlen / 2 ^ (s.getReg b).toNat))) ∧
      (0 ≤ s.getReg a → CompletesInto (.shr d a b) d s (fun v => v = s.getReg a / 2 ^ (s.getReg b).toNat))) ∧
    CompletesInto (.shl d a b) d s (InRange s.cfg.xlen) ∧ CompletesInto (.shr d a b) d s (InRange s.cfg.xlen)

/-- D4's alternative: under `SHR_KIND = logical` zeros enter at the left of the pattern; the count is the amount modulo `XLEN`
under the default of `SHIFT_AMOUNT`, and an amount in `0 .. XLEN-1` itself under every policy (U1). -/
def Obligations.LogicalShiftRightFillsWithZeros : Prop :=
  ∀ (s : State) (d a b : Reg), 0 < s.cfg.xlen → s.cfg.shrKind = .logical →
    (s.cfg.shiftAmount = .modXlen → CompletesInto (.shr d a b) d s (IsWrap s.cfg.xlen
      (s.getReg a % 2 ^ s.cfg.xlen / 2 ^ ((s.getReg b % 2 ^ s.cfg.xlen).toNat % s.cfg.xlen)))) ∧
    (0 ≤ s.getReg b → s.getReg b < s.cfg.xlen → CompletesInto (.shr d a b) d s (IsWrap s.cfg.xlen
      (s.getReg a % 2 ^ s.cfg.xlen / 2 ^ (s.getReg b).toNat)))

/-- D3's alternative: under `SHIFT_AMOUNT = saturate` an amount of `XLEN` or more gives 0 for SHL, and for SHR the sign fill or
0. That the policy reads the amount as unsigned, so that a negative amount is `XLEN` or more too, is the model's choice
(DEDUCED, log entry 4). -/
def Obligations.SaturatingShiftsMoveEveryBitOut : Prop :=
  ∀ (s : State) (d a b : Reg), 0 < s.cfg.xlen → InRange s.cfg.xlen (s.getReg a) → s.cfg.shiftAmount = .saturate →
    (s.cfg.xlen : Int) ≤ s.getReg b % 2 ^ s.cfg.xlen →
    CompletesInto (.shl d a b) d s (fun v => v = 0) ∧
    CompletesInto (.shr d a b) d s (fun v => v = if s.cfg.shrKind = .arithmetic ∧ s.getReg a < 0 then -1 else 0)

/-! ## Comparisons -/

/-- R136: each comparison of the signed values writes 1 or 0; exactly one of GT, EQ, LT holds, GTE is the negation of LT, LTE of
GT, NEQ of EQ. None can fault. -/
def Obligations.ComparisonsWriteOneOrZero : Prop :=
  ∀ (s : State) (d a b : Reg), ∃ g l ge le e n : Int,
    CompletesInto (.gt d a b) d s (fun v => v = g) ∧ CompletesInto (.lt d a b) d s (fun v => v = l) ∧
    CompletesInto (.gte d a b) d s (fun v => v = ge) ∧ CompletesInto (.lte d a b) d s (fun v => v = le) ∧
    CompletesInto (.eq d a b) d s (fun v => v = e) ∧ CompletesInto (.neq d a b) d s (fun v => v = n) ∧
    (∀ x ∈ [g, l, ge, le, e, n], x = 0 ∨ x = 1) ∧
    (g = 1 ↔ s.getReg b < s.getReg a) ∧ (l = 1 ↔ s.getReg a < s.getReg b) ∧ (e = 1 ↔ s.getReg a = s.getReg b) ∧
    g + l + e = 1 ∧ ge = 1 - l ∧ le = 1 - g ∧ n = 1 - e

/-! ## Control transfer -/

/-- R140, R141, R142: JMP always jumps; for any register value exactly one of JZ and JNZ does, JZ at zero; a jump not taken goes
on in sequence. Nothing but `pc` changes. (`pc + 1` at `MAX` and above: log entry 23.) -/
def Obligations.JumpsLoadTheProgramCounter : Prop :=
  ∀ (s : State) (r : Reg) (a : Addr),
    MovesPcTo (.jmp a) s a.toNat ∧
    (s.getReg r = 0 → MovesPcTo (.jz r a) s a.toNat ∧ MovesPcTo (.jnz r a) s (s.pc + 1)) ∧
    (s.getReg r ≠ 0 → MovesPcTo (.jz r a) s (s.pc + 1) ∧ MovesPcTo (.jnz r a) s a.toNat)

/-- R144: a taken jump to its own index repeats for ever, in the same state. -/
def Obligations.SelfJumpRepeatsForever : Prop :=
  ∀ (s : State) (i : Instr) (a : Addr) (k : Nat), s.status = .running → s.pc = a.toNat →
    s.program[a.toNat]? = some i → stepResult s i = .taken → jumpTarget i = some a →
    Sys2Proof.core.run k s = .next s

/-- R145: a taken jump, JMP, JZ or JNZ, to an address outside the program sets `pc`; the next step ends the run, with no fault
event and nothing else changed (the ending step: DEDUCED, log entry 11). -/
def Obligations.JumpPastTheEndEndsTheRun : Prop :=
  ∀ (s : State) (i : Instr) (a : Addr), s.status = .running → s.fetch = some i → jumpTarget i = some a →
    stepResult s i = .taken → s.proglen ≤ a.toNat →
    ∃ t u, step s = .next t ∧ t.pc = a.toNat ∧ t.status = .running ∧ step t = .next u ∧ u.status = .ended ∧
      u.pc = a.toNat ∧ u.trace = s.trace ∧ SameRegs s u ∧ SameCells s u ∧ SameBuild s u

/-! ## System -/

/-- R150, R151: PRINT appends one event that shows the register or the cell; only that and `pc` change.
(`pc + 1` at `MAX` and above: log entry 23.) -/
def Obligations.PrintEmitsOneEvent : Prop :=
  ∀ (s : State) (r : Reg) (a : Addr),
    (∃ t, exec (.print r) s = .next t ∧ t.trace = s.trace ++ [.showReg r (s.getReg r)] ∧ t.status = s.status ∧
      t.pc = s.pc + 1 ∧ SameRegs s t ∧ SameCells s t ∧ SameBuild s t) ∧
    (∃ t, exec (.printMem a) s = .next t ∧ t.trace = s.trace ++ [.showMem a (s.readMem a)] ∧ t.status = s.status ∧
      t.pc = s.pc + 1 ∧ SameRegs s t ∧ SameCells s t ∧ SameBuild s t)

/-- R152: HALT changes no register, no cell and not `pc`, and emits nothing; the run status becomes `Halted`. -/
def Obligations.HaltOnlyStops : Prop :=
  ∀ s : State, ∃ t, exec .halt s = .next t ∧ t.status = .halted ∧ t.trace = s.trace ∧ t.pc = s.pc ∧ SameRegs s t ∧
    SameCells s t ∧ SameBuild s t

/-! ## Rules over all instructions -/

/-- R21: a register changes only if it is the destination operand of LOAD, ADD to NEQ or NOT. -/
def Obligations.OnlyTheDestinationRegisterChanges : Prop :=
  ∀ (i : Instr) (s t : State) (r : Reg), exec i s = .next t → t.getReg r ≠ s.getReg r → dest i = some r

/-- R21: an instruction reads its source operands only: with another value in any other register it does the same, and leaves
that value where it does not write. -/
def Obligations.OnlySourceRegistersAreRead : Prop :=
  ∀ (i : Instr) (s t : State) (r : Reg) (v : Int), r ∉ sources i → exec i s = .next t →
    exec i (s.setReg r v) = .next (if dest i = some r ∧ stepResult s i = .cont then t else t.setReg r v)

/-- R41: only a STORE to it changes a memory cell; a STORE replaces the whole content of its cell, and changes no other. -/
def Obligations.OnlyStoreChangesMemory : Prop :=
  ∀ (i : Instr) (s t : State), s.mem.wf = true → exec i s = .next t →
    (∀ a : Addr, t.readMem a ≠ s.readMem a → ∃ r, i = .store r a) ∧
    ∀ r a, i = .store r a → t.readMem a = s.getReg r ∧ SameCellsBut a s t

/-- R40, R43: no instruction moves a memory cell into a register, or lets one decide `pc` or the status: runs of one instruction
from states that differ in memory only agree on all of these; and all but PRINT MEM emit the same events. -/
def Obligations.MemoryIsReadByPrintMemOnly : Prop :=
  ∀ (i : Instr) (s t : State) (m : Memory), exec i s = .next t →
    ∃ u, exec i { s with mem := m } = .next u ∧ u.regs = t.regs ∧ u.pc = t.pc ∧ u.status = t.status ∧
      ((∀ a, i ≠ .printMem a) → u.trace = t.trace)

/-- R28: the trace is append-only, a step emits at most one event, and what was emitted feeds nothing back into the core. -/
def Obligations.TraceGrowsAndFeedsNothingBack : Prop :=
  ∀ (s t : State) (tr : List Event), step s = .next t →
    ∃ es : List Event, es.length ≤ 1 ∧ t.trace = s.trace ++ es ∧
      step { s with trace := tr } = .next { t with trace := tr ++ es }

/-- R32, R146: in immediate mode a line that does not decode leaves the core untouched, and one that does executes by its
ordinary rule: registers, memory and status do not depend on where `pc` stands, nor does the rule on what program there might
be. With a program attached the host presents no lines (R184). (The status a line finds and leaves, and that the mode is that
of a core without a program: log entries 17 and 22.) -/
def Obligations.ImmediateModeExecutesTheLine : Prop :=
  ∀ (s : State) (line : List Char), s.status = .running →
    (s.program = [] → ∀ e, parse s.cfg.xlen line = .error e → immediate line s = .next (s, some e)) ∧
    (∀ i t, parse s.cfg.xlen line = .ok i → exec i s = .next t →
      (∀ p, exec i { s with program := p } = .next { t with program := p }) ∧
      (s.program = [] → immediate line s = .next (t, none) ∧
        ∀ p : Int, ∃ u, immediate line { s with pc := p } = .next (u, none) ∧ u.regs = t.regs ∧ u.mem = t.mem ∧
          u.status = t.status)) ∧
    (s.program ≠ [] → immediate line s = .refused .notHostsMove)

/-! ## Invariants -/

/-- Every step keeps every value an `XLEN`-bit signed integer, the memory canonical and the program well-formed (R9, R20, R25,
R79; widths from 9: DEDUCED, log entry 3). -/
def Obligations.StepKeepsTheDataInvariant : Prop :=
  ∀ s t : State, s.DataOk → step s = .next t → t.DataOk

/-- R22: every step keeps `pc` in `0 .. max(PROGLEN, 255)`; it never becomes negative and never wraps around
(an integer without width: DEDUCED, log entry 7). -/
def Obligations.StepKeepsTheProgramCounterInBounds : Prop :=
  ∀ s t : State, s.PcOk → step s = .next t → t.PcOk ∧ (s.cfg.WellFormed → InRange t.cfg.xlen t.pc)

/-- R28, R160, R166: every step keeps this: the trace holds a fault event exactly in a faulted run, as its last event, with the
index the run stopped at. -/
def Obligations.StepKeepsTheFaultRecord : Prop :=
  ∀ s t : State, s.FaultOk → step s = .next t → t.FaultOk

/-- Immediate mode keeps the data invariant too: every line, from every state (R32; log entries 3 and 17). -/
def Obligations.ImmediateModeKeepsTheDataInvariant : Prop :=
  ∀ (s t : State) (line : List Char) (e : Option DecodeError), s.DataOk → immediate line s = .next (t, e) → t.DataOk

/-- R187: a running core that meets the invariant always takes its next step (widths from 9: DEDUCED, log entry 3). -/
def Obligations.RunningCoreAlwaysSteps : Prop :=
  ∀ s : State, s.DataOk → s.status = .running → ∃ t, step s = .next t

/-- R185: from any state that meets the invariant, a run of any length keeps it, or has ended before in one of exactly three
ways: `Halted`, `Faulted(DivideByZero)` or `Ended`. It is never refused. (Log entries 3, 8 and 11.) -/
def Obligations.RunsEndInThreeWaysOnly : Prop :=
  ∀ (k : Nat) (s : State), s.Inv →
    (∃ t, Sys2Proof.core.run k s = .next t ∧ t.Inv) ∨
    ∃ st, Sys2Proof.core.run k s = .fault (.notRunning st) ∧
      (st = .halted ∨ st = .faulted .divideByZero ∨ st = .ended)
end

