-- ==== Sys2Proof/Laws/Alu.lean ====
section
/-! SUPPORT. The ALU's results: what `wrap` is, and that every result of an instruction lies in range (spec R9, R115, R116). -/

namespace Sys2Proof

/-- `wrap` is the balanced remainder modulo `2^XLEN`. -/
theorem wrap_eq_bmod (n : Nat) (x : Int) : wrap n x = x.bmod (2 ^ n) := BitVec.toInt_ofInt x

/-- A signed reading lies in `[MIN, MAX]`. -/
theorem signed_inRange {n : Nat} (v : BitVec n) : InRange n (signed v) :=
  ⟨BitVec.le_toInt v, Int.le_sub_one_of_lt (BitVec.toInt_lt (x := v))⟩

theorem wrap_inRange (n : Nat) (x : Int) : InRange n (wrap n x) := signed_inRange _

theorem two_pow_split {n : Nat} (hn : 0 < n) : (2 : Int) ^ n = 2 * 2 ^ (n - 1) := by
  obtain ⟨k, rfl⟩ := Nat.exists_eq_succ_of_ne_zero hn.ne'
  rw [pow_succ', Nat.succ_sub_one]

/-- `wrap` of an integer in range is that integer. -/
theorem wrap_of_inRange {n : Nat} {x : Int} (hn : 0 < n) (h : InRange n x) : wrap n x = x := by
  obtain ⟨h1, h2⟩ := h
  simp only [minValue, maxValue] at h1 h2
  have e := two_pow_split hn
  rw [wrap_eq_bmod]
  apply Int.bmod_eq_of_le_mul_two <;> push_cast <;> omega

theorem zero_inRange {n : Nat} : InRange n 0 := by
  have : (0 : Int) < 2 ^ (n - 1) := by positivity
  refine ⟨?_, ?_⟩ <;> simp only [minValue, maxValue] <;> omega

theorem one_inRange {n : Nat} (hn : 2 ≤ n) : InRange n 1 := by
  have h : (2 : Int) ^ 1 ≤ 2 ^ (n - 1) := pow_le_pow_right₀ (by norm_num) (by omega)
  refine ⟨?_, ?_⟩ <;> simp only [minValue, maxValue] <;> omega

end Sys2Proof

namespace Sys2Proof.Machine

theorem truth_inRange {n : Nat} (hn : 2 ≤ n) (b : Bool) : InRange n (truth b) := by
  cases b
  · exact zero_inRange
  · exact one_inRange hn

theorem aluShr_inRange (c : Config) (x y : Int) : InRange c.xlen (aluShr c x y) := by
  unfold aluShr
  split <;> exact signed_inRange _

/-- REM's result is the remainder the rounding of DIV leaves (R114). -/
theorem aluRem_eq (c : Config) (x y : Int) :
    aluRem c x y = match c.divRounding with
      | .truncate => Int.tmod x y
      | .floor => Int.fmod x y := by
  have h1 := Int.tmod_add_tdiv_mul x y
  have h2 := Int.fmod_add_fdiv_mul x y
  cases h : c.divRounding <;> simp only [aluRem, quotient, h] <;> omega

theorem natAbs_fmod_lt (x : Int) {y : Int} (hy : y ≠ 0) : (Int.fmod x y).natAbs < y.natAbs := by
  rcases lt_or_gt_of_ne hy with hneg | hpos
  · have h := Int.neg_fmod_neg x y
    have h1 := Int.fmod_nonneg_of_pos (-x) (b := -y) (by omega)
    have h2 := Int.fmod_lt_of_pos (-x) (b := -y) (by omega)
    omega
  · have h1 := Int.fmod_nonneg_of_pos x hpos
    have h2 := Int.fmod_lt_of_pos x hpos
    omega

theorem natAbs_tmod_lt (x : Int) {y : Int} (hy : y ≠ 0) : (Int.tmod x y).natAbs < y.natAbs := by
  rw [Int.natAbs_tmod]
  exact Nat.mod_lt _ (Int.natAbs_pos.2 hy)

/-- A remainder by a nonzero divisor in range is in range: its magnitude is below the divisor's. -/
theorem aluRem_inRange (c : Config) (x : Int) {y : Int} (hy : y ≠ 0) (hyr : InRange c.xlen y) :
    InRange c.xlen (aluRem c x y) := by
  have key : (aluRem c x y).natAbs < y.natAbs := by
    rw [aluRem_eq]
    split
    · exact natAbs_tmod_lt x hy
    · exact natAbs_fmod_lt x hy
  obtain ⟨h1, h2⟩ := hyr
  refine ⟨?_, ?_⟩ <;> simp only [minValue, maxValue] at * <;> omega

end Sys2Proof.Machine
end

