-- ==== Sys2Proof/Laws/Decode.lean ====
section
/-! SUPPORT. The small lemmas of the record and word levels: operands read back, fields read back out of a word (spec
30_encoding.md R77 to R83). -/

namespace Sys2Proof

/-! ### Operands -/

@[simp] theorem Reg.index_lt (r : Reg) : r.index < 4 := by cases r <;> decide

@[simp] theorem Reg.ofIndex_index (r : Reg) : Reg.ofIndex r.index = some r := by cases r <;> rfl

@[simp] theorem Reg.ofField_index (r : Reg) : Reg.ofField r.index = r := by cases r <;> rfl

theorem Reg.index_ofField (n : Nat) : (Reg.ofField n).index = n % 4 := by
  have h : n % 4 < 4 := Nat.mod_lt _ (by decide)
  unfold Reg.ofField
  generalize n % 4 = k at h
  match k, h with
  | 0, _ => rfl
  | 1, _ => rfl
  | 2, _ => rfl
  | 3, _ => rfl

@[simp] theorem regOperand_index (r : Reg) : regOperand (r.index : Int) = some r := by cases r <;> rfl

@[simp] theorem addrOperand_toNat (a : Addr) : addrOperand (a.toNat : Int) = some a := by
  have h : a.toNat < 256 := a.isLt
  unfold addrOperand
  rw [if_pos ⟨by omega, by omega⟩]
  simp

theorem regOperand_eq_some {o : Int} {r : Reg} : regOperand o = some r ↔ o = r.index := by
  constructor
  · intro h
    unfold regOperand at h
    split at h
    · next h0 =>
      obtain ⟨n, rfl⟩ := Int.eq_ofNat_of_zero_le h0
      match n, h with
      | 0, h => obtain rfl := Option.some.inj h; rfl
      | 1, h => obtain rfl := Option.some.inj h; rfl
      | 2, h => obtain rfl := Option.some.inj h; rfl
      | 3, h => obtain rfl := Option.some.inj h; rfl
    · exact nomatch h
  · rintro rfl
    exact regOperand_index r

theorem addrOperand_eq_some {o : Int} {a : Addr} : addrOperand o = some a ↔ o = a.toNat := by
  constructor
  · intro h
    unfold addrOperand at h
    split at h
    · next h0 =>
      obtain rfl := Option.some.inj h
      rw [BitVec.toNat_ofNat, Nat.mod_eq_of_lt (by omega)]
      omega
    · exact nomatch h
  · rintro rfl
    exact addrOperand_toNat a

/-! ### Fields of a word -/

/-- The fields a word can hold (R81). -/
structure Fields.Bounded (f : Fields) : Prop where
  op : f.op < 32
  a : f.a < 4
  b : f.b < 4
  c : f.c < 4
  m : f.m < 2
  z : f.z < 16

theorem Fields.ofWord_bounded (w : Nat) : (Fields.ofWord w).Bounded :=
  ⟨Nat.mod_lt _ (by decide), Nat.mod_lt _ (by decide), Nat.mod_lt _ (by decide), Nat.mod_lt _ (by decide),
    Nat.mod_lt _ (by decide), Nat.mod_lt _ (by decide)⟩

/-- The fields of a word's value are those it was made of. -/
theorem Fields.ofWord_word {f : Fields} (h : f.Bounded) : Fields.ofWord f.word = f := by
  obtain ⟨op, a, b, c, m, z, imm⟩ := f
  obtain ⟨h1, h2, h3, h4, h5, h6⟩ := h
  simp only at h1 h2 h3 h4 h5 h6
  simp only [Fields.ofWord, Fields.word, slice, Fields.mk.injEq]
  refine ⟨?_, ?_, ?_, ?_, ?_, ?_, ?_⟩ <;> norm_num <;> omega

/-- A word's value is made of its fields. -/
theorem Fields.word_ofWord (w : Nat) : (Fields.ofWord w).word = w := by
  simp only [Fields.ofWord, Fields.word, slice]
  norm_num
  omega

/-- The bits a format's `imm` may use. -/
theorem unsigned_lt (n : Nat) (x : Int) : unsigned n x < 2 ^ n := (pattern n x).isLt

theorem Instr.fields_bounded (xlen : Nat) (i : Instr) : (i.fields xlen).Bounded := by
  cases i <;> constructor <;> simp [Instr.fields]

/-- The unsigned reading and the signed reading of a value in range agree (R9). -/
theorem wrap_unsigned {n : Nat} {x : Int} (hn : 0 < n) (h : InRange n x) : wrap n (unsigned n x : Int) = x := by
  have e : wrap n (unsigned n x : Int) = wrap n x := by
    rw [wrap, unsigned, pattern, BitVec.ofInt_natCast, BitVec.ofNat_toNat, BitVec.setWidth_eq]
    rfl
  rw [e, wrap_of_inRange hn h]

/-- Packing the unsigned reading of a bit pattern's signed reading gives the pattern back (R9). -/
theorem unsigned_wrap (n m : Nat) (h : m < 2 ^ n) : unsigned n (wrap n (m : Int)) = m := by
  simp [wrap, signed, pattern, unsigned, Nat.mod_eq_of_lt h]

end Sys2Proof
end

