-- ==== Sys2Proof/Laws/Memory.lean ====
section
/-! SUPPORT. The memory: a read after a write, and the canonical form kept by every write (spec 20_memory.md R40, R41). -/

namespace Sys2Proof.Machine

/-- Every listed address is above `a`. -/
abbrev Memory.Above (a : Nat) (m : Memory) : Prop := ∀ c ∈ m, a < c.1

/-- The canonical form, one cell at a time. -/
theorem Memory.wf_cons (b : Nat) (w : Int) (m : Memory) :
    Memory.wf ((b, w) :: m) = true ↔ b < Config.ncell ∧ w ≠ Config.unwritten ∧ Memory.Above b m ∧ Memory.wf m = true := by
  simp [Memory.wf, Memory.Above, and_assoc]

theorem Memory.read_of_above {a : Nat} : ∀ {m : Memory}, Memory.Above a m → m.read a = Config.unwritten
  | [], _ => rfl
  | (b, w) :: m, h => by
    have hb : a < b := h (b, w) (by simp)
    have hm : Memory.Above a m := fun c hc => h c (by simp [hc])
    rw [Memory.read, if_neg (by omega), Memory.read_of_above hm]

/-- A read of the written cell gives the value written. -/
theorem Memory.read_write_same {m : Memory} (hm : m.wf = true) (a : Nat) (v : Int) : (m.write a v).read a = v := by
  induction m with
  | nil =>
    simp only [Memory.write]
    split
    · next h => rw [h]; rfl
    · simp [Memory.read]
  | cons c m ih =>
    obtain ⟨b, w⟩ := c
    obtain ⟨-, -, hab, hwf⟩ := (Memory.wf_cons b w m).1 hm
    simp only [Memory.write]
    split
    · next h =>
      split
      · next hv =>
        subst hv
        apply Memory.read_of_above
        rintro c hc
        rcases List.mem_cons.1 hc with rfl | hc
        · exact h
        · exact lt_trans h (hab c hc)
      · simp [Memory.read]
    · split
      · next h1 h2 =>
        subst h2
        split
        · next hv => subst hv; exact Memory.read_of_above hab
        · simp [Memory.read]
      · next h1 h2 => rw [Memory.read, if_neg h2]; exact ih hwf

/-- A read of any other cell gives what it gave before. -/
theorem Memory.read_write_other (m : Memory) {a x : Nat} (v : Int) (h : x ≠ a) : (m.write a v).read x = m.read x := by
  induction m with
  | nil =>
    simp only [Memory.write]
    split
    · rfl
    · simp [Memory.read, h]
  | cons c m ih =>
    obtain ⟨b, w⟩ := c
    simp only [Memory.write]
    split
    · split
      · rfl
      · simp [Memory.read, h]
    · split
      · next h1 h2 =>
        subst h2
        split <;> simp [Memory.read, h]
      · simp only [Memory.read]
        split
        · rfl
        · exact ih

/-- The cells of a memory after a write are the written one and old ones. -/
theorem Memory.mem_write {m : Memory} {a : Nat} {v : Int} {c : Cell} (h : c ∈ m.write a v) : c = (a, v) ∨ c ∈ m := by
  induction m with
  | nil =>
    simp only [Memory.write] at h
    split at h <;> simp_all
  | cons d m ih =>
    obtain ⟨b, w⟩ := d
    simp only [Memory.write] at h
    split at h
    · split at h <;> simp_all
    · split at h
      · split at h
        · simp_all
        · rcases List.mem_cons.1 h with rfl | h
          · exact .inl rfl
          · exact .inr (List.mem_cons_of_mem _ h)
      · rcases List.mem_cons.1 h with rfl | h
        · exact .inr (by simp)
        · rcases ih h with rfl | h
          · exact .inl rfl
          · exact .inr (List.mem_cons_of_mem _ h)

/-- A write keeps the canonical form. -/
theorem Memory.write_wf {m : Memory} (hm : m.wf = true) {a : Nat} (ha : a < Config.ncell) (v : Int) :
    (m.write a v).wf = true := by
  induction m with
  | nil =>
    simp only [Memory.write]
    split
    · rfl
    · next h => exact (Memory.wf_cons a v []).2 ⟨ha, h, by simp, rfl⟩
  | cons c m ih =>
    obtain ⟨b, w⟩ := c
    have hm' := hm
    obtain ⟨hb, hw, hab, hwf⟩ := (Memory.wf_cons b w m).1 hm
    simp only [Memory.write]
    split
    · next h =>
      split
      · exact hm'
      · next hv =>
        refine (Memory.wf_cons a v _).2 ⟨ha, hv, ?_, hm'⟩
        rintro c hc
        rcases List.mem_cons.1 hc with rfl | hc
        · exact h
        · exact lt_trans h (hab c hc)
    · split
      · next h1 h2 =>
        subst h2
        split
        · exact hwf
        · next hv => exact (Memory.wf_cons a v m).2 ⟨ha, hv, hab, hwf⟩
      · next h1 h2 =>
        refine (Memory.wf_cons b w _).2 ⟨hb, hw, ?_, ih hwf⟩
        rintro c hc
        rcases Memory.mem_write hc with rfl | hc
        · show b < a
          omega
        · exact hab c hc

/-- An address of an instruction is a cell of the memory (R42). -/
theorem Addr.toNat_lt_ncell (a : Addr) : a.toNat < Config.ncell := a.isLt

theorem State.readMem_writeMem_same {s : State} (h : s.mem.wf = true) (a : Addr) (v : Int) :
    (s.writeMem a v).readMem a = v := Memory.read_write_same h a.toNat v

theorem State.readMem_writeMem_other (s : State) {a b : Addr} (v : Int) (h : b ≠ a) :
    (s.writeMem a v).readMem b = s.readMem b :=
  Memory.read_write_other s.mem v fun e => h (BitVec.eq_of_toNat_eq e)

/-- Reset leaves the canonical form, with every cell unwritten. -/
theorem State.create_mem_wf (c : Config) : (State.create c).mem.wf = true := rfl

end Sys2Proof.Machine
end

