-- ==== Sys2Proof/Laws/State.lean ====
section
/-! SUPPORT. One lemma per field per update of `State`, so that no later proof unfolds a record update. -/

namespace Sys2Proof.Machine

/-! ### Registers -/

@[simp] theorem RegFile.get_set_same (f : RegFile) (r : Reg) (v : Int) : (f.set r v).get r = v := by
  cases r <;> rfl

theorem RegFile.get_set_other (f : RegFile) {r d : Reg} (v : Int) (h : r ≠ d) : (f.set d v).get r = f.get r := by
  cases r <;> cases d <;> first | rfl | exact absurd rfl h

theorem RegFile.ext_get {f g : RegFile} (h : ∀ r, f.get r = g.get r) : f = g := by
  obtain ⟨f0, f1, f2, f3⟩ := f
  obtain ⟨g0, g1, g2, g3⟩ := g
  have h0 : f0 = g0 := h .r0
  have h1 : f1 = g1 := h .r1
  have h2 : f2 = g2 := h .r2
  have h3 : f3 = g3 := h .r3
  rw [h0, h1, h2, h3]

@[simp] theorem State.getReg_setReg_same (s : State) (r : Reg) (v : Int) : (s.setReg r v).getReg r = v :=
  RegFile.get_set_same s.regs r v

theorem State.getReg_setReg_other (s : State) {r d : Reg} (v : Int) (h : r ≠ d) :
    (s.setReg d v).getReg r = s.getReg r := RegFile.get_set_other s.regs v h

@[simp] theorem State.setReg_cfg (s : State) (r : Reg) (v : Int) : (s.setReg r v).cfg = s.cfg := rfl
@[simp] theorem State.setReg_pc (s : State) (r : Reg) (v : Int) : (s.setReg r v).pc = s.pc := rfl
@[simp] theorem State.setReg_mem (s : State) (r : Reg) (v : Int) : (s.setReg r v).mem = s.mem := rfl
@[simp] theorem State.setReg_program (s : State) (r : Reg) (v : Int) : (s.setReg r v).program = s.program := rfl
@[simp] theorem State.setReg_status (s : State) (r : Reg) (v : Int) : (s.setReg r v).status = s.status := rfl
@[simp] theorem State.setReg_trace (s : State) (r : Reg) (v : Int) : (s.setReg r v).trace = s.trace := rfl
@[simp] theorem State.readMem_setReg (s : State) (r : Reg) (v : Int) (a : Addr) :
    (s.setReg r v).readMem a = s.readMem a := rfl

/-! ### Memory -/

@[simp] theorem State.writeMem_cfg (s : State) (a : Addr) (v : Int) : (s.writeMem a v).cfg = s.cfg := rfl
@[simp] theorem State.writeMem_regs (s : State) (a : Addr) (v : Int) : (s.writeMem a v).regs = s.regs := rfl
@[simp] theorem State.writeMem_pc (s : State) (a : Addr) (v : Int) : (s.writeMem a v).pc = s.pc := rfl
@[simp] theorem State.writeMem_mem (s : State) (a : Addr) (v : Int) :
    (s.writeMem a v).mem = s.mem.write a.toNat v := rfl
@[simp] theorem State.writeMem_program (s : State) (a : Addr) (v : Int) : (s.writeMem a v).program = s.program := rfl
@[simp] theorem State.writeMem_status (s : State) (a : Addr) (v : Int) : (s.writeMem a v).status = s.status := rfl
@[simp] theorem State.writeMem_trace (s : State) (a : Addr) (v : Int) : (s.writeMem a v).trace = s.trace := rfl
@[simp] theorem State.getReg_writeMem (s : State) (a : Addr) (v : Int) (r : Reg) :
    (s.writeMem a v).getReg r = s.getReg r := rfl

/-! ### Program counter -/

@[simp] theorem State.setPc_cfg (s : State) (p : Int) : (s.setPc p).cfg = s.cfg := rfl
@[simp] theorem State.setPc_regs (s : State) (p : Int) : (s.setPc p).regs = s.regs := rfl
@[simp] theorem State.setPc_pc (s : State) (p : Int) : (s.setPc p).pc = p := rfl
@[simp] theorem State.setPc_mem (s : State) (p : Int) : (s.setPc p).mem = s.mem := rfl
@[simp] theorem State.setPc_program (s : State) (p : Int) : (s.setPc p).program = s.program := rfl
@[simp] theorem State.setPc_status (s : State) (p : Int) : (s.setPc p).status = s.status := rfl
@[simp] theorem State.setPc_trace (s : State) (p : Int) : (s.setPc p).trace = s.trace := rfl
@[simp] theorem State.getReg_setPc (s : State) (p : Int) (r : Reg) : (s.setPc p).getReg r = s.getReg r := rfl
@[simp] theorem State.readMem_setPc (s : State) (p : Int) (a : Addr) : (s.setPc p).readMem a = s.readMem a := rfl

/-! ### Run status -/

@[simp] theorem State.setStatus_cfg (s : State) (st : RunStatus) : (s.setStatus st).cfg = s.cfg := rfl
@[simp] theorem State.setStatus_regs (s : State) (st : RunStatus) : (s.setStatus st).regs = s.regs := rfl
@[simp] theorem State.setStatus_pc (s : State) (st : RunStatus) : (s.setStatus st).pc = s.pc := rfl
@[simp] theorem State.setStatus_mem (s : State) (st : RunStatus) : (s.setStatus st).mem = s.mem := rfl
@[simp] theorem State.setStatus_program (s : State) (st : RunStatus) : (s.setStatus st).program = s.program := rfl
@[simp] theorem State.setStatus_status (s : State) (st : RunStatus) : (s.setStatus st).status = st := rfl
@[simp] theorem State.setStatus_trace (s : State) (st : RunStatus) : (s.setStatus st).trace = s.trace := rfl
@[simp] theorem State.getReg_setStatus (s : State) (st : RunStatus) (r : Reg) :
    (s.setStatus st).getReg r = s.getReg r := rfl
@[simp] theorem State.readMem_setStatus (s : State) (st : RunStatus) (a : Addr) :
    (s.setStatus st).readMem a = s.readMem a := rfl

/-! ### Output trace -/

@[simp] theorem State.emit_cfg (s : State) (e : Event) : (s.emit e).cfg = s.cfg := rfl
@[simp] theorem State.emit_regs (s : State) (e : Event) : (s.emit e).regs = s.regs := rfl
@[simp] theorem State.emit_pc (s : State) (e : Event) : (s.emit e).pc = s.pc := rfl
@[simp] theorem State.emit_mem (s : State) (e : Event) : (s.emit e).mem = s.mem := rfl
@[simp] theorem State.emit_program (s : State) (e : Event) : (s.emit e).program = s.program := rfl
@[simp] theorem State.emit_status (s : State) (e : Event) : (s.emit e).status = s.status := rfl
@[simp] theorem State.emit_trace (s : State) (e : Event) : (s.emit e).trace = s.trace ++ [e] := rfl
@[simp] theorem State.getReg_emit (s : State) (e : Event) (r : Reg) : (s.emit e).getReg r = s.getReg r := rfl
@[simp] theorem State.readMem_emit (s : State) (e : Event) (a : Addr) : (s.emit e).readMem a = s.readMem a := rfl

/-! ### The end of an instruction -/

@[simp] theorem State.retire_cont (s : State) : s.retire .cont = s.setPc (s.pc + 1) := rfl
@[simp] theorem State.retire_taken (s : State) : s.retire .taken = s := rfl
@[simp] theorem State.retire_halted (s : State) : s.retire .halted = s.setStatus .halted := rfl
@[simp] theorem State.retire_faulted (s : State) (c : Cause) : s.retire (.faulted c) = s.setStatus (.faulted c) := rfl

/-- Everything the runtime fault does (R160). -/
theorem State.raise_eq (s : State) (c : Cause) :
    s.raise c = (s.emit (.fault c s.pc)).setStatus (.faulted c) := rfl

end Sys2Proof.Machine
end

