-- ==== Sys2Proof/Laws/Exec.lean ====
section
/-! SUPPORT. Everything an instruction and a step can do, said once: one spec lemma per shared operation, the effect of each
instruction as one named update of the state (`exec_effect`), and the cases of one step (`step_cases`). -/

namespace Sys2Proof.Machine

/-! ### Shared operations -/

theorem finishReg_eq (d : Reg) (v : Int) (s : State) : finishReg d v s = .next ((s.setReg d v).setPc (s.pc + 1)) := rfl

theorem finishJump_eq (a : Addr) (s : State) : finishJump a s = .next (s.setPc a.toNat) := rfl

theorem jumpIf_eq (b : Bool) (a : Addr) (s : State) :
    jumpIf b a s = .next (s.setPc (if b then (a.toNat : Int) else s.pc + 1)) := by
  cases b <;> rfl

theorem withDivisor_zero {d a b : Reg} {f : Config → Int → Int → Int} {s : State} (h : s.getReg b = 0) :
    withDivisor d a b f s = .next (s.raise .divideByZero) := if_pos h

theorem withDivisor_nonzero {d a b : Reg} {f : Config → Int → Int → Int} {s : State} (h : s.getReg b ≠ 0) :
    withDivisor d a b f s = .next ((s.setReg d (f s.cfg (s.getReg a) (s.getReg b))).setPc (s.pc + 1)) := if_neg h

theorem withLiteral_inRange {d : Reg} {v : Int} {s : State} (h : InRange s.cfg.xlen v) :
    withLiteral d v s = .next ((s.setReg d v).setPc (s.pc + 1)) := if_pos h

theorem withLiteral_outOfRange {d : Reg} {v : Int} {s : State} (h : ¬ InRange s.cfg.xlen v) :
    withLiteral d v s = .refused .illFormedRecord := if_neg h

@[simp] theorem State.isZero_iff (s : State) (r : Reg) : s.isZero r = true ↔ s.getReg r = 0 := decide_eq_true_iff

@[simp] theorem State.isZero_false_iff (s : State) (r : Reg) : s.isZero r = false ↔ s.getReg r ≠ 0 := decide_eq_false_iff_not

/-! ### The value an instruction writes -/

/-- The value each instruction with a destination writes there, of the state before it; 0 for the others. -/
def resultOf (s : State) : Instr → Int
  | .load _ v => v
  | .add _ a b => aluAdd s.cfg (s.getReg a) (s.getReg b)
  | .sub _ a b => aluSub s.cfg (s.getReg a) (s.getReg b)
  | .mul _ a b => aluMul s.cfg (s.getReg a) (s.getReg b)
  | .div _ a b => aluDiv s.cfg (s.getReg a) (s.getReg b)
  | .rem _ a b => aluRem s.cfg (s.getReg a) (s.getReg b)
  | .and _ a b => aluAnd s.cfg (s.getReg a) (s.getReg b)
  | .or _ a b => aluOr s.cfg (s.getReg a) (s.getReg b)
  | .xor _ a b => aluXor s.cfg (s.getReg a) (s.getReg b)
  | .shl _ a b => aluShl s.cfg (s.getReg a) (s.getReg b)
  | .shr _ a b => aluShr s.cfg (s.getReg a) (s.getReg b)
  | .not _ a => aluNot s.cfg (s.getReg a)
  | .gt _ a b => cmpGt (s.getReg a) (s.getReg b)
  | .lt _ a b => cmpLt (s.getReg a) (s.getReg b)
  | .gte _ a b => cmpGte (s.getReg a) (s.getReg b)
  | .lte _ a b => cmpLte (s.getReg a) (s.getReg b)
  | .eq _ a b => cmpEq (s.getReg a) (s.getReg b)
  | .neq _ a b => cmpNeq (s.getReg a) (s.getReg b)
  | .store _ _ | .jmp _ | .jz _ _ | .jnz _ _ | .print _ | .printMem _ | .halt => 0

/-- The instruction may execute normally in `s`: a LOAD's literal is in range (R79). -/
def Executable (s : State) (i : Instr) : Prop := i.wellFormed s.cfg.xlen = true

/-- DIV or REM with a zero divisor (R160). -/
def DividesByZero (s : State) : Instr → Prop
  | .div _ _ b => s.getReg b = 0
  | .rem _ _ b => s.getReg b = 0
  | _ => False

/-- An instruction with a destination writes it and goes on, unless it divides by zero. -/
theorem exec_writes {s : State} {i : Instr} {d : Reg} (hd : dest i = some d) (hw : i.wellFormed s.cfg.xlen = true)
    (hz : ¬ DividesByZero s i) : exec i s = .next ((s.setReg d (resultOf s i)).setPc (s.pc + 1)) := by
  cases i <;> simp only [dest, Option.some.injEq, reduceCtorEq] at hd
  case load => subst hd; exact withLiteral_inRange (by simpa [Instr.wellFormed] using hw)
  case div => subst hd; exact withDivisor_nonzero hz
  case rem => subst hd; exact withDivisor_nonzero hz
  all_goals subst hd; rfl

/-- DIV and REM with a zero divisor take the runtime fault. -/
theorem exec_faults {s : State} {i : Instr} (hz : DividesByZero s i) : exec i s = .next (s.raise .divideByZero) := by
  cases i <;> first | exact hz.elim | exact withDivisor_zero hz

/-- Everything one instruction can do, if it gives a next state. -/
theorem exec_cases {i : Instr} {s t : State} (h : exec i s = .next t) :
    (∃ d, dest i = some d ∧ i.wellFormed s.cfg.xlen = true ∧ ¬ DividesByZero s i ∧ stepResult s i = .cont ∧
      t = (s.setReg d (resultOf s i)).setPc (s.pc + 1)) ∨
    (DividesByZero s i ∧ stepResult s i = .faulted .divideByZero ∧ t = s.raise .divideByZero) ∨
    (∃ r a, i = .store r a ∧ stepResult s i = .cont ∧ t = (s.writeMem a (s.getReg r)).setPc (s.pc + 1)) ∨
    (∃ a : Addr, dest i = none ∧ stepResult s i = .taken ∧ t = s.setPc a.toNat) ∨
    (dest i = none ∧ stepResult s i = .cont ∧ t = s.setPc (s.pc + 1)) ∨
    (∃ r, i = .print r ∧ stepResult s i = .cont ∧ t = (s.emit (.showReg r (s.getReg r))).setPc (s.pc + 1)) ∨
    (∃ a, i = .printMem a ∧ stepResult s i = .cont ∧ t = (s.emit (.showMem a (s.readMem a))).setPc (s.pc + 1)) ∨
    (i = .halt ∧ stepResult s i = .halted ∧ t = s.setStatus .halted) := by
  by_cases hz : DividesByZero s i
  · rw [exec_faults hz] at h
    refine .inr (.inl ⟨hz, ?_, (Host.Outcome.next.inj h).symm⟩)
    cases i <;> first | exact hz.elim | (simp only [stepResult]; exact if_pos ((State.isZero_iff _ _).2 hz))
  · cases hd : dest i with
    | some d =>
      refine .inl ⟨d, rfl, ?_⟩
      have hw : i.wellFormed s.cfg.xlen = true := by
        cases i <;> try rfl
        case load r v =>
          by_contra hw
          rw [show exec (.load r v) s = _ from withLiteral_outOfRange (by simpa [Instr.wellFormed] using hw)] at h
          exact nomatch h
      rw [exec_writes hd hw hz] at h
      refine ⟨hw, hz, ?_, (Host.Outcome.next.inj h).symm⟩
      cases i <;> first | rfl | (simp [dest] at hd; done) | (simp only [stepResult]; exact if_neg (mt (State.isZero_iff _ _).1 hz))
    | none =>
      refine .inr (.inr ?_)
      cases i <;> try (simp [dest] at hd; done)
      case store r a => exact .inl ⟨r, a, rfl, rfl, (Host.Outcome.next.inj h).symm⟩
      case jmp a => exact .inr (.inl ⟨a, rfl, rfl, (Host.Outcome.next.inj h).symm⟩)
      case jz r a =>
        simp only [exec, execJz, jumpIf_eq, Host.Outcome.next.injEq] at h
        cases hb : s.isZero r <;> simp only [hb] at h <;> simp only [stepResult, hb]
        · exact .inr (.inr (.inl ⟨trivial, rfl, h.symm⟩))
        · exact .inr (.inl ⟨a, trivial, rfl, h.symm⟩)
      case jnz r a =>
        simp only [exec, execJnz, jumpIf_eq, Host.Outcome.next.injEq] at h
        cases hb : s.isZero r <;> simp only [hb] at h <;> simp only [stepResult, hb]
        · exact .inr (.inl ⟨a, trivial, rfl, h.symm⟩)
        · exact .inr (.inr (.inl ⟨trivial, rfl, h.symm⟩))
      case print r => exact .inr (.inr (.inr (.inl ⟨r, rfl, rfl, (Host.Outcome.next.inj h).symm⟩)))
      case printMem a => exact .inr (.inr (.inr (.inr (.inl ⟨a, rfl, rfl, (Host.Outcome.next.inj h).symm⟩))))
      case halt => exact .inr (.inr (.inr (.inr (.inr ⟨rfl, rfl, (Host.Outcome.next.inj h).symm⟩))))

/-- JZ in one equation (R141). -/
theorem exec_jz (r : Reg) (a : Addr) (s : State) :
    exec (.jz r a) s = .next (s.setPc (if s.getReg r = 0 then (a.toNat : Int) else s.pc + 1)) := by
  by_cases h : s.getReg r = 0 <;> simp [exec, execJz, jumpIf_eq, State.isZero, h]

/-- JNZ in one equation (R142). -/
theorem exec_jnz (r : Reg) (a : Addr) (s : State) :
    exec (.jnz r a) s = .next (s.setPc (if s.getReg r = 0 then s.pc + 1 else (a.toNat : Int))) := by
  by_cases h : s.getReg r = 0 <;> simp [exec, execJnz, jumpIf_eq, State.isZero, h]

/-- What an instruction does to a running core does not depend on the program, the status or the trace it finds: from a state
that differs in these only, it writes the same registers, memory and program counter, and appends the same events. -/
theorem exec_congr {i : Instr} {s t : State} (h : exec i s = .next t) (p : List Instr) (st : RunStatus) (tr : List Event) :
    ∃ es : List Event, t.trace = s.trace ++ es ∧ es.length ≤ 1 ∧
      exec i { s with program := p, status := st, trace := tr } =
        .next { t with program := p, trace := tr ++ es,
                       status := if (stepResult s i).continues then st else (stepResult s i).status } := by
  cases i
  case jz r a =>
    rw [exec_jz] at h ⊢
    obtain rfl := Host.Outcome.next.inj h
    refine ⟨[], by simp, by simp, ?_⟩
    cases hz : s.isZero r <;> simp [stepResult, hz, StepResult.continues] <;> rfl
  case jnz r a =>
    rw [exec_jnz] at h ⊢
    obtain rfl := Host.Outcome.next.inj h
    refine ⟨[], by simp, by simp, ?_⟩
    cases hz : s.isZero r <;> simp [stepResult, hz, StepResult.continues] <;> rfl
  case div d a b =>
    by_cases hz : s.getReg b = 0
    · have h' := Host.Outcome.next.inj ((exec_faults (i := .div d a b) hz).symm.trans h)
      subst h'
      refine ⟨_, rfl, by simp, ?_⟩
      rw [exec_faults (i := .div d a b) (s := { s with program := p, status := st, trace := tr }) hz]
      simp [stepResult, State.isZero, hz, StepResult.continues, StepResult.status]
      rfl
    · have h' := Host.Outcome.next.inj ((exec_writes (i := .div d a b) rfl rfl hz).symm.trans h)
      subst h'
      refine ⟨[], by simp, by simp, ?_⟩
      rw [exec_writes (i := .div d a b) (s := { s with program := p, status := st, trace := tr }) rfl rfl hz]
      simp [stepResult, State.isZero, hz, StepResult.continues]
      rfl
  case rem d a b =>
    by_cases hz : s.getReg b = 0
    · have h' := Host.Outcome.next.inj ((exec_faults (i := .rem d a b) hz).symm.trans h)
      subst h'
      refine ⟨_, rfl, by simp, ?_⟩
      rw [exec_faults (i := .rem d a b) (s := { s with program := p, status := st, trace := tr }) hz]
      simp [stepResult, State.isZero, hz, StepResult.continues, StepResult.status]
      rfl
    · have h' := Host.Outcome.next.inj ((exec_writes (i := .rem d a b) rfl rfl hz).symm.trans h)
      subst h'
      refine ⟨[], by simp, by simp, ?_⟩
      rw [exec_writes (i := .rem d a b) (s := { s with program := p, status := st, trace := tr }) rfl rfl hz]
      simp [stepResult, State.isZero, hz, StepResult.continues]
      rfl
  case load d v =>
    have hw : InRange s.cfg.xlen v := by
      by_contra hw
      exact nomatch (withLiteral_outOfRange (d := d) hw).symm.trans h
    obtain rfl := Host.Outcome.next.inj ((withLiteral_inRange (d := d) hw).symm.trans h)
    refine ⟨[], by simp, by simp, ?_⟩
    exact (withLiteral_inRange (s := { s with program := p, status := st, trace := tr }) hw).trans (by simp [stepResult, StepResult.continues]; rfl)
  case print r => obtain rfl := Host.Outcome.next.inj h; exact ⟨_, rfl, by simp, rfl⟩
  case printMem a => obtain rfl := Host.Outcome.next.inj h; exact ⟨_, rfl, by simp, rfl⟩
  all_goals
    obtain rfl := Host.Outcome.next.inj h
    exact ⟨[], by simp, by simp, by simp [stepResult, StepResult.continues, StepResult.status]; rfl⟩

/-- The one thing that keeps an instruction from a next state is a LOAD literal out of range. -/
theorem exec_completes {i : Instr} {s : State} (hw : i.wellFormed s.cfg.xlen = true) : ∃ t, exec i s = .next t := by
  by_cases hz : DividesByZero s i
  · exact ⟨_, exec_faults hz⟩
  · cases hd : dest i with
    | some d => exact ⟨_, exec_writes hd hw hz⟩
    | none =>
      cases i <;> first
        | (simp [dest] at hd; done)
        | exact ⟨_, rfl⟩
        | exact ⟨_, jumpIf_eq _ _ _⟩

/-! ### Fetch and step -/

/-- A fetch succeeds exactly at an index of the program. -/
theorem State.fetch_eq_some {s : State} {i : Instr} :
    s.fetch = some i ↔ 0 ≤ s.pc ∧ s.program[s.pc.toNat]? = some i := by
  unfold State.fetch
  split <;> simp <;> omega

theorem State.fetch_lt {s : State} {i : Instr} (h : s.fetch = some i) : 0 ≤ s.pc ∧ s.pc < s.proglen := by
  obtain ⟨h0, h1⟩ := State.fetch_eq_some.1 h
  have := (List.getElem?_eq_some_iff.1 h1).1
  have h2 : s.proglen = s.program.length := rfl
  omega

theorem State.fetch_mem {s : State} {i : Instr} (h : s.fetch = some i) : i ∈ s.program :=
  List.mem_of_getElem? (State.fetch_eq_some.1 h).2

/-- Everything one step can do (R30). -/
theorem step_cases {s t : State} (h : step s = .next t) :
    s.status = .running ∧ ((s.fetch = none ∧ t = s.setStatus .ended) ∨ ∃ i, s.fetch = some i ∧ exec i s = .next t) := by
  unfold step cycle at h
  split at h
  · next hs =>
    refine ⟨hs, ?_⟩
    split at h
    · next hf => exact .inl ⟨hf, (Host.Outcome.next.inj h).symm⟩
    · next i hf => exact .inr ⟨i, hf, h⟩
  all_goals exact nomatch h

theorem step_of_fetch {s : State} {i : Instr} (hs : s.status = .running) (hf : s.fetch = some i) : step s = exec i s := by
  unfold step cycle
  rw [hs, hf]

theorem step_of_end {s : State} (hs : s.status = .running) (hf : s.fetch = none) :
    step s = .next (s.setStatus .ended) := by
  unfold step cycle
  rw [hs, hf]

theorem step_of_stopped {s : State} (hs : s.status ≠ .running) : step s = .fault (.notRunning s.status) := by
  unfold step cycle
  split <;> simp_all

/-! ### Runs -/

theorem run_zero (s : State) : Sys2Proof.core.run 0 s = .next s := rfl

/-- A run goes on from the next state. -/
theorem run_succ_next {s t : State} (k : Nat) (h : step s = .next t) :
    Sys2Proof.core.run (k + 1) s = Sys2Proof.core.run k t := by
  have h' : Sys2Proof.core.step s = .next t := h
  exact (Host.Core.run.eq_2 Sys2Proof.core s k).trans (by rw [h'])

/-- A run stops at a fault. -/
theorem run_succ_fault {s : State} {f : Fault} (k : Nat) (h : step s = .fault f) :
    Sys2Proof.core.run (k + 1) s = .fault f := by
  have h' : Sys2Proof.core.step s = .fault f := h
  exact (Host.Core.run.eq_2 Sys2Proof.core s k).trans (by rw [h'])

/-- A run stops at a refusal. -/
theorem run_succ_refused {s : State} {r : Refusal} (k : Nat) (h : step s = .refused r) :
    Sys2Proof.core.run (k + 1) s = .refused r := by
  have h' : Sys2Proof.core.step s = .refused r := h
  exact (Host.Core.run.eq_2 Sys2Proof.core s k).trans (by rw [h'])

end Sys2Proof.Machine
end

