-- ==== Sys2Proof/Laws/Driver.lean ====
section
/-! SUPPORT. What the host's operations can do (spec 10_state.md R31, R32; 70_reset_and_hazards.md R184). -/

namespace Sys2Proof.Machine

theorem State.mayExecute_iff (s : State) (i : Instr) :
    s.mayExecute i = true ↔ s.program = [] ∨ s.fetch = some i := by
  simp [State.mayExecute]

/-- Everything `execute` can do, if it answers. -/
theorem execute_cases {i : Instr} {s t : State} {b : Bool} (h : execute i s = .next (t, b)) :
    s.status = .running ∧ s.mayExecute i = true ∧ exec i s = .next t ∧ b = (stepResult s i).continues := by
  unfold execute at h
  split at h
  · next hs =>
    split at h
    · next hm =>
      split at h
      · next u hu =>
        obtain ⟨rfl, rfl⟩ := Prod.mk.inj (Host.Outcome.next.inj h)
        exact ⟨hs, hm, hu, rfl⟩
      all_goals exact nomatch h
    · exact nomatch h
  · exact nomatch h

theorem execute_of_next {i : Instr} {s t : State} (hs : s.status = .running) (hm : s.mayExecute i = true)
    (h : exec i s = .next t) : execute i s = .next (t, (stepResult s i).continues) := by
  simp [execute, hs, hm, h]

theorem execute_of_stopped {i : Instr} {s : State} (hs : s.status ≠ .running) :
    execute i s = .fault (.notRunning s.status) := if_neg hs

theorem execute_of_other {i : Instr} {s : State} (hs : s.status = .running) (hm : s.mayExecute i = false) :
    execute i s = .refused .notHostsMove := by
  simp [execute, hs, hm]

/-- Everything a line in immediate mode can do, if it is answered. -/
theorem immediate_cases {line : List Char} {s t : State} {e : Option DecodeError} (h : immediate line s = .next (t, e)) :
    s.status = .running ∧ s.program = [] ∧
      ((∃ x, parse s.cfg.xlen line = .error x ∧ t = s ∧ e = some x) ∨
        ∃ i, parse s.cfg.xlen line = .ok i ∧ exec i s = .next t ∧ e = none) := by
  unfold immediate at h
  split at h
  · next hs =>
    split at h
    · next hp =>
      refine ⟨hs, hp, ?_⟩
      split at h
      · next i hi =>
        split at h
        · next u b hu =>
          obtain ⟨rfl, rfl⟩ := Prod.mk.inj (Host.Outcome.next.inj h)
          exact .inr ⟨i, hi, (execute_cases hu).2.2.1, rfl⟩
        all_goals exact nomatch h
      · next x hx =>
        obtain ⟨rfl, rfl⟩ := Prod.mk.inj (Host.Outcome.next.inj h)
        exact .inl ⟨x, hx, rfl, rfl⟩
      · exact nomatch h
    · exact nomatch h
  · exact nomatch h

/-- A line that decodes, at a running core without a program. -/
theorem immediate_of_ok {line : List Char} {i : Instr} {s t : State} (hs : s.status = .running) (hp : s.program = [])
    (hi : parse s.cfg.xlen line = .ok i) (h : exec i s = .next t) : immediate line s = .next (t, none) := by
  have hm : s.mayExecute i = true := (State.mayExecute_iff s i).2 (.inl hp)
  simp [immediate, hs, hp, hi, execute_of_next hs hm h]

theorem immediate_of_stopped {line : List Char} {s : State} (hs : s.status ≠ .running) :
    immediate line s = .fault (.notRunning s.status) := if_neg hs

end Sys2Proof.Machine
end

