-- ==== Sys2Proof/Laws/PerInstr.lean ====
section
/-! SUPPORT. One lemma per instruction: a well-formed instruction's record is well-formed (spec 30_encoding.md R79) and is read
back as that instruction (R77, R80). -/

namespace Sys2Proof.Laws.Record

/-- At every width, the instruction is well-formed exactly when its record is, and its record is then read as itself. -/
def Statement (i : Instr) : Prop :=
  ∀ xlen : Nat, i.record.wellFormed xlen = i.wellFormed xlen ∧
    (i.wellFormed xlen = true → i.record.toInstr xlen = some i)

/-- A register's index is a register operand. -/
@[simp] theorem admits_reg (xlen : Nat) (r : Reg) : OperandKind.reg.admits xlen (r.index : Int) = true := by cases r <;> rfl

/-- An address is an address operand. -/
@[simp] theorem admits_addr (xlen : Nat) (a : Addr) : OperandKind.addr.admits xlen (a.toNat : Int) = true := by
  have h : a.toNat < 256 := a.isLt
  exact decide_eq_true ⟨by omega, by omega⟩

@[simp] theorem admits_value (xlen : Nat) (v : Int) : OperandKind.value.admits xlen v = decide (InRange xlen v) := rfl

@[simp] theorem admits_sentinel (xlen : Nat) : OperandKind.sentinel.admits xlen (-1) = true := rfl

theorem load (d : Reg) (v : Int) : Statement (.load d v) := by
  intro xlen
  simp [Instr.record, Instr.mnemonic, Instr.operands, Record.wellFormed, Mnemonic.shapes, fitsShape,
    Instr.wellFormed, Record.toInstr, ofLoad]

theorem store (s : Reg) (a : Addr) : Statement (.store s a) := by
  intro xlen
  simp [Instr.record, Instr.mnemonic, Instr.operands, Record.wellFormed, Mnemonic.shapes, fitsShape,
    Instr.wellFormed, Record.toInstr, ofRA]

theorem add (d s1 s2 : Reg) : Statement (.add d s1 s2) := by
  intro xlen
  simp [Instr.record, Instr.mnemonic, Instr.operands, Record.wellFormed, Mnemonic.shapes, fitsShape,
    Instr.wellFormed, Record.toInstr, ofRRR]

theorem sub (d s1 s2 : Reg) : Statement (.sub d s1 s2) := by
  intro xlen
  simp [Instr.record, Instr.mnemonic, Instr.operands, Record.wellFormed, Mnemonic.shapes, fitsShape,
    Instr.wellFormed, Record.toInstr, ofRRR]

theorem mul (d s1 s2 : Reg) : Statement (.mul d s1 s2) := by
  intro xlen
  simp [Instr.record, Instr.mnemonic, Instr.operands, Record.wellFormed, Mnemonic.shapes, fitsShape,
    Instr.wellFormed, Record.toInstr, ofRRR]

theorem div (d s1 s2 : Reg) : Statement (.div d s1 s2) := by
  intro xlen
  simp [Instr.record, Instr.mnemonic, Instr.operands, Record.wellFormed, Mnemonic.shapes, fitsShape,
    Instr.wellFormed, Record.toInstr, ofRRR]

theorem rem (d s1 s2 : Reg) : Statement (.rem d s1 s2) := by
  intro xlen
  simp [Instr.record, Instr.mnemonic, Instr.operands, Record.wellFormed, Mnemonic.shapes, fitsShape,
    Instr.wellFormed, Record.toInstr, ofRRR]

theorem and (d s1 s2 : Reg) : Statement (.and d s1 s2) := by
  intro xlen
  simp [Instr.record, Instr.mnemonic, Instr.operands, Record.wellFormed, Mnemonic.shapes, fitsShape,
    Instr.wellFormed, Record.toInstr, ofRRR]

theorem or (d s1 s2 : Reg) : Statement (.or d s1 s2) := by
  intro xlen
  simp [Instr.record, Instr.mnemonic, Instr.operands, Record.wellFormed, Mnemonic.shapes, fitsShape,
    Instr.wellFormed, Record.toInstr, ofRRR]

theorem xor (d s1 s2 : Reg) : Statement (.xor d s1 s2) := by
  intro xlen
  simp [Instr.record, Instr.mnemonic, Instr.operands, Record.wellFormed, Mnemonic.shapes, fitsShape,
    Instr.wellFormed, Record.toInstr, ofRRR]

theorem shl (d s1 s2 : Reg) : Statement (.shl d s1 s2) := by
  intro xlen
  simp [Instr.record, Instr.mnemonic, Instr.operands, Record.wellFormed, Mnemonic.shapes, fitsShape,
    Instr.wellFormed, Record.toInstr, ofRRR]

theorem shr (d s1 s2 : Reg) : Statement (.shr d s1 s2) := by
  intro xlen
  simp [Instr.record, Instr.mnemonic, Instr.operands, Record.wellFormed, Mnemonic.shapes, fitsShape,
    Instr.wellFormed, Record.toInstr, ofRRR]

theorem not (d s : Reg) : Statement (.not d s) := by
  intro xlen
  simp [Instr.record, Instr.mnemonic, Instr.operands, Record.wellFormed, Mnemonic.shapes, fitsShape,
    Instr.wellFormed, Record.toInstr, ofNot]

theorem gt (d s1 s2 : Reg) : Statement (.gt d s1 s2) := by
  intro xlen
  simp [Instr.record, Instr.mnemonic, Instr.operands, Record.wellFormed, Mnemonic.shapes, fitsShape,
    Instr.wellFormed, Record.toInstr, ofRRR]

theorem lt (d s1 s2 : Reg) : Statement (.lt d s1 s2) := by
  intro xlen
  simp [Instr.record, Instr.mnemonic, Instr.operands, Record.wellFormed, Mnemonic.shapes, fitsShape,
    Instr.wellFormed, Record.toInstr, ofRRR]

theorem gte (d s1 s2 : Reg) : Statement (.gte d s1 s2) := by
  intro xlen
  simp [Instr.record, Instr.mnemonic, Instr.operands, Record.wellFormed, Mnemonic.shapes, fitsShape,
    Instr.wellFormed, Record.toInstr, ofRRR]

theorem lte (d s1 s2 : Reg) : Statement (.lte d s1 s2) := by
  intro xlen
  simp [Instr.record, Instr.mnemonic, Instr.operands, Record.wellFormed, Mnemonic.shapes, fitsShape,
    Instr.wellFormed, Record.toInstr, ofRRR]

theorem eq (d s1 s2 : Reg) : Statement (.eq d s1 s2) := by
  intro xlen
  simp [Instr.record, Instr.mnemonic, Instr.operands, Record.wellFormed, Mnemonic.shapes, fitsShape,
    Instr.wellFormed, Record.toInstr, ofRRR]

theorem neq (d s1 s2 : Reg) : Statement (.neq d s1 s2) := by
  intro xlen
  simp [Instr.record, Instr.mnemonic, Instr.operands, Record.wellFormed, Mnemonic.shapes, fitsShape,
    Instr.wellFormed, Record.toInstr, ofRRR]

theorem jmp (a : Addr) : Statement (.jmp a) := by
  intro xlen
  simp [Instr.record, Instr.mnemonic, Instr.operands, Record.wellFormed, Mnemonic.shapes, fitsShape,
    Instr.wellFormed, Record.toInstr, ofJmp]

theorem jz (s : Reg) (a : Addr) : Statement (.jz s a) := by
  intro xlen
  simp [Instr.record, Instr.mnemonic, Instr.operands, Record.wellFormed, Mnemonic.shapes, fitsShape,
    Instr.wellFormed, Record.toInstr, ofRA]

theorem jnz (s : Reg) (a : Addr) : Statement (.jnz s a) := by
  intro xlen
  simp [Instr.record, Instr.mnemonic, Instr.operands, Record.wellFormed, Mnemonic.shapes, fitsShape,
    Instr.wellFormed, Record.toInstr, ofRA]

theorem print (s : Reg) : Statement (.print s) := by
  intro xlen
  simp [Instr.record, Instr.mnemonic, Instr.operands, Record.wellFormed, Mnemonic.shapes, fitsShape,
    Instr.wellFormed, Record.toInstr, ofPrint]

theorem printMem (a : Addr) : Statement (.printMem a) := by
  intro xlen
  simp [Instr.record, Instr.mnemonic, Instr.operands, Record.wellFormed, Mnemonic.shapes, fitsShape,
    Instr.wellFormed, Record.toInstr, ofPrint]

theorem halt : Statement .halt := by
  intro xlen
  simp [Instr.record, Instr.mnemonic, Instr.operands, Record.wellFormed, Mnemonic.shapes, fitsShape,
    Instr.wellFormed, Record.toInstr, ofHalt]

end Sys2Proof.Laws.Record
end

