-- ==== Sys2Proof/Tests/Slice0.lean ====
section
/-! SUPPORT. Small checks of the model against the words, lines and rows of the spec (95_test_vectors.md, cited by section), and
witnesses that the hypotheses of the statements can be met. -/

namespace Sys2Proof.Tests

open Sys2Proof.Machine

/-! ## Helpers -/

/-- A core just reset, with the given registers. -/
def core (r0 r1 r2 r3 : Int) : State := { State.reset with regs := { r0 := r0, r1 := r1, r2 := r2, r3 := r3 } }

/-- The same, at other parameters. -/
def coreAt (c : Config) (r0 r1 r2 r3 : Int) : State :=
  { State.create c with regs := { r0 := r0, r1 := r1, r2 := r2, r3 := r3 } }

/-- A view of the state after an instruction, none where it gives no next state. -/
def after {α : Type} (i : Instr) (s : State) (f : State → α) : Option α :=
  match exec i s with
  | .next t => some (f t)
  | .fault _ => none
  | .refused _ => none

/-- The register after an instruction. -/
def reg (r : Reg) (i : Instr) (s : State) : Option Int := after i s (·.getReg r)

/-- Lines of text. -/
def line (s : String) : Decoded Instr := parse 64 s.toList

/-- The smallest and the largest value at 64 bits. -/
def MIN : Int := -9223372036854775808
def MAX : Int := 9223372036854775807

/-! ## Well-formedness (R79): the one check refuses, at both ends -/

theorem test_wellFormed_load_bounds :
    (Instr.load .r0 MAX).wellFormed 64 = true ∧ (Instr.load .r0 (MAX + 1)).wellFormed 64 = false ∧
    (Instr.load .r0 MIN).wellFormed 64 = true ∧ (Instr.load .r0 (MIN - 1)).wellFormed 64 = false := by decide

/-- Records that R79 shuts out: a register index 4 or -1, an address 256 or -1, a wrong count, a PRINT with two operands and no
sentinel. -/
theorem test_wellFormed_records :
    Record.wellFormed 64 ⟨.add, [1, 2, 4]⟩ = false ∧ Record.wellFormed 64 ⟨.add, [1, 2, -1]⟩ = false ∧
    Record.wellFormed 64 ⟨.add, [1, 2]⟩ = false ∧ Record.wellFormed 64 ⟨.store, [2, 256]⟩ = false ∧
    Record.wellFormed 64 ⟨.jmp, [-1]⟩ = false ∧ Record.wellFormed 64 ⟨.print, [0, 1]⟩ = false ∧
    Record.wellFormed 64 ⟨.print, [-1, 4]⟩ = false ∧ Record.wellFormed 64 ⟨.halt, [0]⟩ = false ∧
    Record.wellFormed 64 ⟨.load, [0, MAX + 1]⟩ = false ∧ Record.wellFormed 64 ⟨.print, [-1, 3]⟩ = true ∧
    Record.wellFormed 64 ⟨.print, [255]⟩ = true := by decide

theorem test_record_of_print :
    (Record.mk .print [-1, 0]).toInstr 64 = some (.print .r0) ∧ (Record.mk .print [64]).toInstr 64 = some (.printMem 64) := by
  decide

/-! ## Words: every constructor from a word of 95_test_vectors.md or one written out by R81 to R83 -/

theorem test_word_load : decodeWord 64 0x000000000000000A0020 = .ok (.load .r1 10) ∧
    decodeWord 64 0xFFFFFFFFFFFFFFFF0060 = .ok (.load .r3 (-1)) ∧
    decodeWord 64 0x80000000000000000000 = .ok (.load .r0 MIN) ∧
    decodeWord 64 0x7FFFFFFFFFFFFFFF0060 = .ok (.load .r3 MAX) := by decide
theorem test_word_store : decodeWord 64 0x000000000000001A0041 = .ok (.store .r2 26) ∧
    decodeWord 64 0x00000000000000FF0001 = .ok (.store .r0 255) := by decide
theorem test_word_add : decodeWord 64 0x00000000000000000722 = .ok (.add .r1 .r2 .r3) ∧
    decodeWord 64 0x000000000000000006A2 = .ok (.add .r1 .r1 .r3) := by decide
theorem test_word_sub : decodeWord 64 0x00000000000000000403 = .ok (.sub .r0 .r0 .r2) := by decide
/-- Written out: `c` = 3, `b` = 2, `a` = 0, `op` = 4. -/
theorem test_word_mul : decodeWord 64 0b11_10_00_00100 = .ok (.mul .r0 .r2 .r3) := by decide
theorem test_word_div : decodeWord 64 0x00000000000000000245 = .ok (.div .r2 .r0 .r1) := by decide
theorem test_word_rem : decodeWord 64 0x00000000000000000266 = .ok (.rem .r3 .r0 .r1) := by decide
/-- Written out: `c` = 2, `b` = 1, `a` = 0, `op` = 7; and so on below. -/
theorem test_word_and : decodeWord 64 0b10_01_00_00111 = .ok (.and .r0 .r1 .r2) := by decide
theorem test_word_or : decodeWord 64 0b10_01_11_01000 = .ok (.or .r3 .r1 .r2) := by decide
theorem test_word_xor : decodeWord 64 0x000000000000000007E9 = .ok (.xor .r3 .r3 .r3) := by decide
theorem test_word_shl : decodeWord 64 0x0000000000000000024A = .ok (.shl .r2 .r0 .r1) := by decide
theorem test_word_shr : decodeWord 64 0x0000000000000000034B = .ok (.shr .r2 .r2 .r1) := by decide
theorem test_word_not : decodeWord 64 0x0000000000000000016C = .ok (.not .r3 .r2) ∧
    decodeWord 64 0x0000000000000000002C = .ok (.not .r1 .r0) := by decide
theorem test_word_gt : decodeWord 64 0x0000000000000000024D = .ok (.gt .r2 .r0 .r1) := by decide
theorem test_word_lt : decodeWord 64 0b11_00_01_01110 = .ok (.lt .r1 .r0 .r3) := by decide
theorem test_word_gte : decodeWord 64 0b01_10_11_01111 = .ok (.gte .r3 .r2 .r1) := by decide
theorem test_word_lte : decodeWord 64 0b00_01_10_10000 = .ok (.lte .r2 .r1 .r0) := by decide
theorem test_word_eq : decodeWord 64 0x00000000000000000711 = .ok (.eq .r0 .r2 .r3) := by decide
theorem test_word_neq : decodeWord 64 0b10_11_01_10010 = .ok (.neq .r1 .r3 .r2) := by decide
theorem test_word_jmp : decodeWord 64 0x00000000000000FF0013 = .ok (.jmp 255) := by decide
theorem test_word_jz : decodeWord 64 0x00000000000000060054 = .ok (.jz .r2 6) := by decide
theorem test_word_jnz : decodeWord 64 0x000000000000007F0075 = .ok (.jnz .r3 127) := by decide
theorem test_word_print : decodeWord 64 0x00000000000000000016 = .ok (.print .r0) ∧
    decodeWord 64 0x00000000000000000056 = .ok (.print .r2) := by decide
theorem test_word_printMem : decodeWord 64 0x00000000000000400816 = .ok (.printMem 64) ∧
    decodeWord 64 0x00000000000000000816 = .ok (.printMem 0) := by decide
theorem test_word_halt : decodeWord 64 0x00000000000000000017 = .ok .halt := by decide

/-- 95_test_vectors.md section 4: the words that are rejected. -/
theorem test_words_rejected :
    decodeWord 64 0x00000000000000000018 = .error (.unknownOpcode 24) ∧
    decodeWord 64 0x0000000000000000001F = .error (.unknownOpcode 31) ∧
    decodeWord 64 0x00000000000000001017 = .error .reservedEncoding ∧
    decodeWord 64 0x00000000000000000037 = .error .reservedEncoding ∧
    decodeWord 64 0x00000000000000010016 = .error .reservedEncoding ∧
    decodeWord 64 0x00000000000001000816 = .error .invalidAddress ∧
    decodeWord 64 0x00000000000001000001 = .error .invalidAddress ∧
    decodeWord 64 0x00000000000000000802 = .error .reservedEncoding ∧
    decodeWord 64 0x00000000000000010002 = .error .reservedEncoding ∧
    decodeWord 64 0x0000000000000000022C = .error .reservedEncoding ∧
    decodeWord 64 0x00000000000000000033 = .error .reservedEncoding := by decide

/-- R84: check (2) comes before check (3). -/
theorem test_word_address_before_reserved : decodeWord 64 0x0000000000000100F081 = .error .invalidAddress := by decide

theorem test_encode :
    encode 64 (.load .r3 (-1)) = 0xFFFFFFFFFFFFFFFF0060 ∧ encode 64 (.jz .r3 5) = 0x00000000000000050074 ∧
    encode 64 (.printMem 16) = 0x00000000000000100816 ∧ encode 64 (.gt .r2 .r0 .r1) = 0x24D := by decide

/-- R86: the masks of spec/opcode_table.json at 64 bits. -/
theorem test_masks :
    Format.ri.mask 64 = 0x0000000000000000FF9F ∧ Format.ra.mask 64 = 0xFFFFFFFFFFFFFF00FF9F ∧
    Format.rrr.mask 64 = 0xFFFFFFFFFFFFFFFFF81F ∧ Format.rr.mask 64 = 0xFFFFFFFFFFFFFFFFFE1F ∧
    Format.a.mask 64 = 0xFFFFFFFFFFFFFF00FFFF ∧ Format.pr.mask 64 = 0xFFFFFFFFFFFFFFFFFF9F ∧
    Format.pm.mask 64 = 0xFFFFFFFFFFFFFF00FFFF ∧ Format.n.mask 64 = 0xFFFFFFFFFFFFFFFFFFFF := by decide

/-- A word of 25 bits at `XLEN` = 9 (R81): `LOAD R1 -1`. -/
theorem test_word_at_other_width : decodeWord 9 0x1FF0020 = .ok (.load .r1 (-1)) := by decide

/-! ## Lines: 95_test_vectors.md section 2 -/

theorem test_lines_decode :
    line "LOAD R1 10" = .ok (.load .r1 10) ∧ line "STORE R2 0x1A" = .ok (.store .r2 26) ∧
    line "ADD R1 R2 R3" = .ok (.add .r1 .r2 .r3) ∧ line "NOT R3 R0" = .ok (.not .r3 .r0) ∧
    line "JMP 0xFF" = .ok (.jmp 255) ∧ line "JZ R0 0x00" = .ok (.jz .r0 0) ∧ line "JNZ R3 0x7f" = .ok (.jnz .r3 127) ∧
    line "PRINT R0" = .ok (.print .r0) ∧ line "PRINT MEM 0x40" = .ok (.printMem 64) ∧ line "HALT" = .ok .halt := by decide

theorem test_lines_decode_values :
    line "LOAD R0 -9223372036854775808" = .ok (.load .r0 MIN) ∧
    line "LOAD R3 9223372036854775807" = .ok (.load .r3 MAX) ∧ line "LOAD R2 -0" = .ok (.load .r2 0) ∧
    line "LOAD R2 007" = .ok (.load .r2 7) ∧ line "  LOAD\tR1   10  ; comment" = .ok (.load .r1 10) ∧
    line "STORE R2 0X001a" = .ok (.store .r2 26) ∧ line "LOAD R1 5;x" = .ok (.load .r1 5) := by decide

theorem test_lines_empty :
    line "" = .error .emptyInstruction ∧ line "   " = .error .emptyInstruction ∧
    line "; only a comment" = .error .emptyInstruction := by decide

theorem test_lines_unknown :
    line "load R1 10" = .error (.unknownInstruction "load".toList) ∧
    line "MOV R1 R2" = .error (.unknownInstruction "MOV".toList) ∧
    line "HALT." = .error (.unknownInstruction "HALT.".toList) := by decide

theorem test_lines_arity :
    line "ADD R1 R2" = .error (.arityError .add) ∧ line "ADD R1 R2 R3 R0" = .error (.arityError .add) ∧
    line "ADD R9 R2" = .error (.arityError .add) ∧ line "HALT now" = .error (.arityError .halt) ∧
    line "LOAD R1" = .error (.arityError .load) ∧ line "LOAD R1 ;5" = .error (.arityError .load) ∧
    line "NOT R1 R2 R3" = .error (.arityError .not) ∧ line "JMP" = .error (.arityError .jmp) := by decide

theorem test_lines_register :
    line "ADD R4 R1 R2" = .error .invalidRegister ∧ line "ADD R1 r2 R3" = .error .invalidRegister ∧
    line "ADD R1 R2 R03" = .error .invalidRegister ∧ line "ADD R1, R2, R3" = .error .invalidRegister ∧
    line "LOAD 5 R1" = .error .invalidRegister ∧ line "STORE R9 0x100" = .error .invalidRegister := by decide

theorem test_lines_address :
    line "STORE R2 26" = .error .invalidAddress ∧ line "STORE R2 1A" = .error .invalidAddress ∧
    line "STORE R2 0x" = .error .invalidAddress ∧ line "STORE R2 0x100" = .error .invalidAddress ∧
    line "STORE R2 0x1G" = .error .invalidAddress ∧ line "STORE R2 0x-1" = .error .invalidAddress ∧
    line "JMP 5" = .error .invalidAddress ∧ line "JMP loop" = .error .invalidAddress := by decide

theorem test_lines_value :
    line "LOAD R1 abc" = .error .invalidValue ∧ line "LOAD R1 1.5" = .error .invalidValue ∧
    line "LOAD R1 0x10" = .error .invalidValue ∧ line "LOAD R1 --1" = .error .invalidValue ∧
    line "LOAD R1 -" = .error .invalidValue ∧ line "LOAD R1 9223372036854775808" = .error .invalidValue ∧
    line "LOAD R1 -9223372036854775809" = .error .invalidValue ∧ line "LOAD R1 +5" = .unsettled := by decide

theorem test_lines_print :
    line "PRINT" = .error (.arityError .print) ∧ line "PRINT MEM 0x10 0x11" = .error (.arityError .print) ∧
    line "PRINT MEM" = .error (.arityError .print) ∧ line "PRINT R1 0x10" = .error (.arityError .print) ∧
    line "PRINT R7" = .error .invalidRegister ∧ line "PRINT REG" = .error .invalidRegister ∧
    line "PRINT MEM 0x100" = .error .invalidAddress ∧ line "PRINT MEM R1" = .error .invalidAddress ∧
    line "PRINT 0x10" = .error .invalidPrintOperand ∧ line "PRINT mem 0x10" = .error .invalidPrintOperand := by decide

/-- R85: the canonical text of a record. -/
theorem test_canonical :
    Instr.canonical 64 (.store .r2 26) = "STORE R2 0x1A".toList ∧ Instr.canonical 64 (.load .r0 (-30)) = "LOAD R0 -30".toList ∧
    Instr.canonical 64 (.printMem 5) = "PRINT MEM 0x05".toList ∧ Instr.canonical 64 .halt = "HALT".toList := by decide

/-- R161. -/
theorem test_cause_codes :
    Cause.divideByZero.code = 1 ∧ DecodeError.emptyInstruction.code = 16 ∧ (DecodeError.unknownOpcode 24).code = 17 ∧
    DecodeError.reservedEncoding.code = 23 := by decide

/-! ## Execution: 95_test_vectors.md section 3 -/

theorem test_load : reg .r1 (.load .r1 10) (core 1 2 3 4) = some 10 ∧ reg .r0 (.load .r1 10) (core 1 2 3 4) = some 1 := by decide
theorem test_load_ill_formed : exec (.load .r1 (MAX + 1)) State.reset = .refused .illFormedRecord := by rfl

theorem test_store : after (.store .r2 26) (core 0 0 (-5) 0) (fun t => (t.readMem 26, t.readMem 27, t.pc)) = some (-5, 0, 1) := by
  decide
/-- A second store to a cell: the later value stays, and storing 0 leaves nothing listed. -/
theorem test_store_again :
    after (.store .r1 0) { core 0 7 0 0 with mem := [(0, 3)] } (·.mem) = some [(0, 7)] ∧
    after (.store .r0 0) { core 0 7 0 0 with mem := [(0, 3)] } (·.mem) = some [] := by decide

theorem test_add : reg .r1 (.add .r1 .r2 .r3) (core 0 0 5 7) = some 12 ∧ reg .r1 (.add .r1 .r1 .r1) (core 0 21 0 0) = some 42 := by
  decide
theorem test_add_wraps : reg .r2 (.add .r2 .r0 .r1) (core MAX 1 0 0) = some MIN ∧
    reg .r2 (.add .r2 .r0 .r1) (core MIN (-1) 0 0) = some MAX := by decide
theorem test_sub : reg .r1 (.sub .r1 .r2 .r3) (core 0 0 5 7) = some (-2) ∧ reg .r1 (.sub .r1 .r3 .r2) (core 0 0 5 7) = some 2 := by
  decide
theorem test_sub_wraps : reg .r2 (.sub .r2 .r0 .r1) (core MIN 1 0 0) = some MAX ∧
    reg .r2 (.sub .r2 .r0 .r1) (core 0 MIN 0 0) = some MIN := by decide
theorem test_mul : reg .r0 (.mul .r0 .r2 .r3) (core 0 0 (-3) 7) = some (-21) ∧
    reg .r2 (.mul .r2 .r0 .r1) (core MAX 2 0 0) = some (-2) := by decide
theorem test_mul_wraps : reg .r2 (.mul .r2 .r0 .r1) (core 4294967296 4294967296 0 0) = some 0 ∧
    reg .r1 (.mul .r1 .r0 .r0) (core 3037000500 0 0 0) = some (-9223372036709301616) := by decide
theorem test_div : reg .r0 (.div .r0 .r1 .r2) (core 0 (-7) 2 0) = some (-3) ∧
    reg .r0 (.div .r0 .r1 .r2) (core 0 7 (-2) 0) = some (-3) ∧ reg .r0 (.div .r0 .r1 .r2) (core 0 (-7) (-2) 0) = some 3 ∧
    reg .r0 (.div .r0 .r1 .r2) (core 9 MIN (-1) 0) = some MIN := by decide
theorem test_div_by_zero :
    after (.div .r0 .r1 .r2) { core 9 7 0 0 with pc := 5 } (fun t => (t.getReg .r0, t.pc, t.status, t.trace)) =
      some (9, 5, .faulted .divideByZero, [.fault .divideByZero 5]) := by decide
theorem test_rem : reg .r0 (.rem .r0 .r1 .r2) (core 0 (-7) 2 0) = some (-1) ∧
    reg .r0 (.rem .r0 .r1 .r2) (core 0 7 (-2) 0) = some 1 ∧ reg .r0 (.rem .r0 .r1 .r2) (core 0 (-7) (-2) 0) = some (-1) ∧
    reg .r0 (.rem .r0 .r1 .r2) (core 9 MIN (-1) 0) = some 0 := by decide
theorem test_rem_by_zero :
    after (.rem .r1 .r2 .r1) { core 0 0 8 0 with pc := 3 } (fun t => (t.getReg .r1, t.pc, t.status, t.trace)) =
      some (0, 3, .faulted .divideByZero, [.fault .divideByZero 3]) := by decide

theorem test_and : reg .r0 (.and .r0 .r1 .r2) (core 0 12 10 0) = some 8 ∧ reg .r0 (.and .r0 .r1 .r2) (core 0 (-1) 255 0) = some 255 := by
  decide
theorem test_or : reg .r0 (.or .r0 .r1 .r2) (core 0 12 10 0) = some 14 ∧ reg .r0 (.or .r0 .r1 .r2) (core 0 (-16) 3 0) = some (-13) := by
  decide
theorem test_xor : reg .r0 (.xor .r0 .r1 .r2) (core 0 12 10 0) = some 6 ∧ reg .r0 (.xor .r0 .r1 .r2) (core 0 (-1) MAX 0) = some MIN := by
  decide
theorem test_shl : reg .r0 (.shl .r0 .r1 .r2) (core 0 1 63 0) = some MIN ∧ reg .r0 (.shl .r0 .r1 .r2) (core 0 (-1) 1 0) = some (-2) := by
  decide
theorem test_shl_out_of_range : reg .r0 (.shl .r0 .r1 .r2) (core 0 1 64 0) = some 1 ∧
    reg .r0 (.shl .r0 .r1 .r2) (core 0 1 65 0) = some 2 ∧ reg .r0 (.shl .r0 .r1 .r2) (core 0 3 (-1) 0) = some MIN := by decide
theorem test_shr : reg .r0 (.shr .r0 .r1 .r2) (core 0 (-16) 2 0) = some (-4) ∧
    reg .r0 (.shr .r0 .r1 .r2) (core 0 (-7) 1 0) = some (-4) ∧ reg .r0 (.shr .r0 .r1 .r2) (core 0 MAX 62 0) = some 1 ∧
    reg .r0 (.shr .r0 .r1 .r2) (core 0 256 72 0) = some 1 ∧ reg .r0 (.shr .r0 .r1 .r2) (core 0 (-16) (-1) 0) = some (-1) := by decide
/-- The last column of section 3.3: the results of a logical SHR. -/
theorem test_shr_logical :
    reg .r0 (.shr .r0 .r1 .r2) (coreAt { Config.standard with shrKind := .logical } 0 (-16) 2 0) = some 4611686018427387900 ∧
    reg .r0 (.shr .r0 .r1 .r2) (coreAt { Config.standard with shrKind := .logical } 0 MIN 63 0) = some 1 := by decide
theorem test_not : reg .r1 (.not .r1 .r2) (core 0 0 5 0) = some (-6) ∧ reg .r2 (.not .r2 .r2) (core 0 0 MIN 0) = some MAX := by decide

/-- The rows `7, 5`, `-1, 1` and `5, 5` of section 3.4. -/
theorem test_gt : reg .r0 (.gt .r0 .r1 .r2) (core 9 7 5 0) = some 1 ∧ reg .r0 (.gt .r0 .r1 .r2) (core 9 (-1) 1 0) = some 0 ∧
    reg .r0 (.gt .r0 .r1 .r2) (core 9 5 5 0) = some 0 ∧ reg .r1 (.gt .r1 .r1 .r2) (core 0 7 5 0) = some 1 := by decide
theorem test_lt : reg .r0 (.lt .r0 .r1 .r2) (core 9 7 5 0) = some 0 ∧ reg .r0 (.lt .r0 .r1 .r2) (core 9 (-1) 1 0) = some 1 ∧
    reg .r0 (.lt .r0 .r1 .r2) (core 9 5 5 0) = some 0 := by decide
theorem test_gte : reg .r0 (.gte .r0 .r1 .r2) (core 9 7 5 0) = some 1 ∧ reg .r0 (.gte .r0 .r1 .r2) (core 9 (-1) 1 0) = some 0 ∧
    reg .r0 (.gte .r0 .r1 .r2) (core 9 5 5 0) = some 1 := by decide
theorem test_lte : reg .r0 (.lte .r0 .r1 .r2) (core 9 7 5 0) = some 0 ∧ reg .r0 (.lte .r0 .r1 .r2) (core 9 (-1) 1 0) = some 1 ∧
    reg .r0 (.lte .r0 .r1 .r2) (core 9 5 5 0) = some 1 := by decide
theorem test_eq : reg .r0 (.eq .r0 .r1 .r2) (core 9 7 5 0) = some 0 ∧ reg .r0 (.eq .r0 .r1 .r2) (core 9 5 5 0) = some 1 ∧
    reg .r0 (.eq .r0 .r1 .r2) (core 9 5 (-5) 0) = some 0 := by decide
theorem test_neq : reg .r0 (.neq .r0 .r1 .r2) (core 9 7 5 0) = some 1 ∧ reg .r0 (.neq .r0 .r1 .r2) (core 9 5 5 0) = some 0 ∧
    reg .r0 (.neq .r0 .r1 .r2) (core 9 5 (-5) 0) = some 1 := by decide

theorem test_jmp : after (.jmp 5) { State.reset with pc := 2 } (·.pc) = some 5 := by decide
theorem test_jz : after (.jz .r1 10) { core 0 0 0 0 with pc := 3 } (·.pc) = some 10 ∧
    after (.jz .r1 10) { core 0 (-1) 0 0 with pc := 3 } (·.pc) = some 4 := by decide
theorem test_jnz : after (.jnz .r0 2) { core (-1) 0 0 0 with pc := 7 } (·.pc) = some 2 ∧
    after (.jnz .r0 2) { core 0 0 0 0 with pc := 7 } (·.pc) = some 8 := by decide
theorem test_print : after (.print .r0) (core 42 0 0 0) (fun t => (t.trace, t.pc)) = some ([.showReg .r0 42], 1) := by decide
theorem test_printMem :
    after (.printMem 64) { State.reset with mem := [(64, 7)] } (fun t => (t.trace, t.pc)) = some ([.showMem 64 7], 1) ∧
    after (.printMem 255) State.reset (·.trace) = some [.showMem 255 0] := by decide
theorem test_halt : after .halt { State.reset with pc := 4 } (fun t => (t.status, t.pc, t.trace)) = some (.halted, 4, []) := by decide

/-! ## The cycle and the host's operations -/

theorem test_step_at_reset : step State.reset = .next { State.reset with status := .ended } := by rfl

/-- A word placed at the program counter is what the next step runs. -/
theorem test_fetch_word :
    step (State.reset.withFetchWord 80 0x000000000000000A0020) =
      .next { State.reset with program := [.load .r1 10], pc := 1, regs := { r0 := 0, r1 := 10, r2 := 0, r3 := 0 } } := by rfl

theorem test_table_word : decodeTableWord 80 0x817 = none ∧ decodeTableWord 80 0x816 = some (.printMem 0) := by decide

/-- P5 of section 5: the load reports line 2, and nothing is loaded. -/
theorem test_load_text_rejects :
    loadText ["LOAD R0 1".toList, "STORE R0 0x100".toList, "HALT".toList] State.reset =
      .next (State.reset, some (2, .invalidAddress)) := by rfl

/-- P7 of section 5, its first five lines: blank and comment lines take no slot. -/
theorem test_load_text_skips :
    parseProgram 64 ["; sum to memory".toList, "LOAD R0 2   ; first".toList, [], "  LOAD R1 3".toList,
      "ADD R2 R0 R1 ; 5".toList] = .ok [.load .r0 2, .load .r1 3, .add .r2 .r0 .r1] := by decide

/-- R32: a line in immediate mode. -/
theorem test_immediate :
    immediate "LOAD R0 1".toList State.reset =
      .next ({ State.reset with regs := { r0 := 1, r1 := 0, r2 := 0, r3 := 0 }, pc := 1 }, none) ∧
    immediate "LOAD R0 +1".toList State.reset = .refused .openLiteral := ⟨rfl, rfl⟩

/-! ## Witnesses: states and operands that meet the hypotheses of each statement, at the ends of the ranges -/

/-- A running core in the middle of a program, with a written cell and an event. -/
def busy : State :=
  { cfg := Config.standard, regs := { r0 := MIN, r1 := MAX, r2 := 0, r3 := -1 }, pc := 1, mem := [(0, 7), (255, MIN)],
    program := [.load .r1 MAX, .div .r0 .r1 .r2, .jmp 255], status := .running, trace := [.showReg .r1 MAX] }

/-- The same core after its DIV by zero. -/
def failed : State :=
  { busy with status := .faulted .divideByZero, trace := [.showReg .r1 MAX, .fault .divideByZero 1] }

/-- A running core in immediate mode: no program is attached. -/
def idle : State := { busy with program := [] }

theorem witness_busy_data : busy.DataOk :=
  ⟨by decide, by intro r; cases r <;> decide, by decide, by decide, by decide, by
    intro e he
    obtain rfl := List.mem_singleton.1 he
    exact ⟨by decide, by decide⟩⟩

/-- A program far shorter than `2^63`. -/
theorem witness_short {n : Nat} (h : n ≤ 3) : n < 2 ^ (Config.standard.xlen - 1) := by
  have : (3 : Nat) < 2 ^ (Config.standard.xlen - 1) := by decide
  omega

theorem witness_busy_pc : busy.PcOk := ⟨by decide, by decide, witness_short (by decide)⟩

theorem witness_busy_fault : busy.FaultOk := by
  intro d p h
  exact nomatch List.mem_singleton.1 h

theorem witness_busy_inv : busy.Inv := ⟨witness_busy_data, witness_busy_pc, witness_busy_fault⟩

theorem witness_failed_fault : failed.FaultOk := ⟨[.showReg .r1 MAX], rfl, by
  intro d p h
  exact nomatch List.mem_singleton.1 h⟩

/-- The program counter may stand one past a program, or at 255 outside a shorter one. -/
theorem witness_pc_ends : ({ busy with pc := 3 } : State).PcOk ∧ ({ busy with pc := 255 } : State).PcOk :=
  ⟨⟨by decide, by decide, witness_short (by decide)⟩, ⟨by decide, by decide, witness_short (by decide)⟩⟩

/-- The step out of `busy` that the invariants speak of, and the one that ends a run. -/
theorem witness_steps : step busy = .next failed ∧
    step { busy with pc := 3 } = .next { busy with pc := 3, status := .ended } := ⟨rfl, rfl⟩

/-- Encoding: the smallest width, both ends of LOAD's literal, and the highest address. -/
theorem witness_encoded : (8 ≤ 8 ∧ (Instr.load .r3 (-128)).wellFormed 8 = true) ∧
    (8 ≤ 64 ∧ (Instr.load .r0 MAX).wellFormed 64 = true) ∧ (8 ≤ 64 ∧ (Instr.printMem 255).wellFormed 64 = true) := by decide

theorem witness_validWord : decodeWord 8 0xFF0001 = .ok (.store .r0 255) ∧
    (Instr.store .r0 255).wellFormed 8 = true ∧ encode 8 (.store .r0 255) = 0xFF0001 := by decide

/-- R84, the words that reach each check: `op` = 24 and 31; `imm` = 256; `imm` = 255 with `z` = 1; ADD with `m` = 1; JMP with
`a` = 1; LOAD with `b` = 1; NOT with `c` = 1; PRINT with `imm` = 1; none of these. -/
theorem witness_word_checks :
    (24 ≤ ((0x18 : BitVec 80).extractLsb' 0 5).toNat ∧ 24 ≤ ((0x1F : BitVec 80).extractLsb' 0 5).toNat) ∧
    (((0x1000001 : BitVec 80).extractLsb' 0 5).toNat = 1 ∧ 255 < ((0x1000001 : BitVec 80).extractLsb' 16 64).toNat) ∧
    (((0xFF1001 : BitVec 80).extractLsb' 12 4).toNat ≠ 0 ∧ ¬ 255 < ((0xFF1001 : BitVec 80).extractLsb' 16 64).toNat) ∧
    (((0x802 : BitVec 80).extractLsb' 11 1).toNat = 1 ∧ ((0x802 : BitVec 80).extractLsb' 0 5).toNat ≠ 22) ∧
    (((0x33 : BitVec 80).extractLsb' 0 5).toNat = 19 ∧ ((0x33 : BitVec 80).extractLsb' 5 2).toNat ≠ 0) ∧
    (((0x80 : BitVec 80).extractLsb' 0 5).toNat = 0 ∧ ((0x80 : BitVec 80).extractLsb' 7 2).toNat ≠ 0) ∧
    (((0x20C : BitVec 80).extractLsb' 0 5).toNat = 12 ∧ ((0x20C : BitVec 80).extractLsb' 9 2).toNat ≠ 0) ∧
    (((0x10016 : BitVec 80).extractLsb' 0 5).toNat = 22 ∧ ((0x10016 : BitVec 80).extractLsb' 16 64).toNat ≠ 0) := by decide

theorem witness_matchesRow : matchesRow 64 0x40816 .print 1 = true ∧ matchesRow 64 0x16 .print 0 = true ∧
    matchesRow 64 0x722 .add 0 = true ∧ matchesRow 64 0x722 .sub 0 = false := by decide

theorem witness_records : Record.toInstr 64 ⟨.jz, [3, 255]⟩ = some (.jz .r3 255) ∧
    (Instr.record (.print .r3)).tag = .print ∧ (Instr.record (.printMem 255)).tag = .print ∧
    Record.wellFormed State.reset.cfg.xlen ⟨.halt, [0]⟩ = false ∧ ¬ InRange State.reset.cfg.xlen (MAX + 1) ∧
    ¬ InRange State.reset.cfg.xlen (MIN - 1) := by decide

theorem witness_splits : Splits [' ', 'A', '\t'] [['A']] := by
  have h : Splits ['\t'] [] := .done _ (by simp [isSpace])
  exact .token [' '] ['A'] ['\t'] [] (by simp [isSpace]) (by simp) (by simp [isSpace]) (by simp [isSpace]) h

theorem witness_tokens : tokens "MOV R1".toList = ["MOV".toList, "R1".toList] ∧
    tokens "HALT 1".toList = [Mnemonic.halt.text, ['1']] ∧ tokens "NOT R1 R2".toList = [Mnemonic.not.text, ['R', '1'], ['R', '2']] ∧
    [['1']].length + 1 ∉ tokenCounts .halt ∧ [['R', '1'], ['R', '2']].length + 1 ∈ tokenCounts .not := by decide

/-- R72, a line for each clause. -/
theorem witness_print :
    tokens "PRINT".toList = [Mnemonic.print.text] ∧
    tokens "PRINT R0 R1 R2".toList = [Mnemonic.print.text, ['R', '0'], ['R', '1'], ['R', '2']] ∧
    tokens "PRINT MEM 0xFF".toList = [Mnemonic.print.text, ['M', 'E', 'M'], ['0', 'x', 'F', 'F']] ∧
    addressToken ['0', 'x', 'F', 'F'] = .ok 255 ∧ addressToken ['0', 'x', '1', '0', '0'] = .error .invalidAddress ∧
    tokens "PRINT MEM".toList = [Mnemonic.print.text, ['M', 'E', 'M']] ∧
    tokens "PRINT R3".toList = [Mnemonic.print.text, ['R', '3']] ∧ registerToken ['R', '3'] = .ok .r3 ∧
    registerToken ['R', '4'] = .error .invalidRegister ∧ tokens "PRINT R 5".toList = [Mnemonic.print.text, ['R'], ['5']] ∧
    tokens "PRINT X".toList = [Mnemonic.print.text, ['X']] := by decide

theorem witness_tokens_values : [['R', '4'], ['r', '1'], []].all (fun t =>
    decide (t ∉ [['R', '0'], ['R', '1'], ['R', '2'], ['R', '3']])) = true ∧
    valueToken 9 "-256".toList = .ok (-256) ∧ valueToken 9 "255".toList = .ok 255 ∧ valueToken 9 "256".toList = .error .invalidValue ∧
    valueToken 9 "+".toList = .unsettled ∧ (Instr.load .r2 (-256)).wellFormed 9 = true := by decide

/-- A bad line after a good and an empty one; a bad word after a good one; a program that loads. -/
theorem witness_loads :
    parse State.reset.cfg.xlen ['J'] = .error (.unknownInstruction ['J']) ∧ parse State.reset.cfg.xlen [] = .error .emptyInstruction ∧
    parse State.reset.cfg.xlen ['H', 'A', 'L', 'T'] = .ok .halt ∧
    decodeWord State.reset.cfg.xlen 0x17 = .ok .halt ∧ decodeWord State.reset.cfg.xlen 0x18 = .error (.unknownOpcode 24) ∧
    Config.standard.WellFormed ∧ parseProgram 64 [[], ['H', 'A', 'L', 'T']] = .ok [.halt] ∧ 1 < 2 ^ (Config.standard.xlen - 1) := by
  decide

/-- R30: an index of the program, both ends of it, and the two sides out of it. -/
theorem witness_fetch : busy.status = .running ∧ 0 ≤ busy.pc ∧ busy.program[busy.pc.toNat]? = some (.div .r0 .r1 .r2) ∧
    (busy.proglen : Int) ≤ ({ busy with pc := 3 } : State).pc ∧ ({ busy with pc := -1 } : State).pc < 0 ∧
    failed.status ≠ .running := by decide

theorem witness_placed : 8 ≤ busy.cfg.xlen ∧ (Instr.load .r0 MIN).wellFormed busy.cfg.xlen = true ∧ 16 + busy.cfg.xlen ≤ 80 := by
  decide

/-- One instruction for each step result (R23, R29). -/
theorem witness_stepResults : stepResult busy (.load .r0 1) = .cont ∧ stepResult busy (.jz .r2 9) = .taken ∧
    stepResult busy .halt = .halted ∧ stepResult busy (.div .r0 .r1 .r2) = .faulted .divideByZero ∧
    execute (.div .r0 .r1 .r2) busy = .next (failed, false) ∧
    execute (.jmp 0) idle = .next ({ idle with pc := 0 }, true) ∧ busy.program ≠ [] ∧ busy.fetch ≠ some .halt :=
  ⟨rfl, rfl, rfl, rfl, rfl, rfl, by decide, by decide⟩

/-- R29, R184: a stopped core executes nothing, not even HALT; a core in the middle of a program takes neither a line nor an
instruction that is not its next one. -/
theorem test_host_has_no_move :
    execute .halt failed = .fault (.notRunning (.faulted .divideByZero)) ∧
    executeRecord { tag := .halt, operands := [] } failed = .fault (.notRunning (.faulted .divideByZero)) ∧
    immediate "HALT".toList failed = .fault (.notRunning (.faulted .divideByZero)) ∧
    execute .halt busy = .refused .notHostsMove ∧ immediate "HALT".toList busy = .refused .notHostsMove :=
  ⟨rfl, rfl, rfl, rfl, rfl⟩

theorem witness_run : Sys2Proof.core.run 1 busy = .next failed ∧ Sys2Proof.core.run 2 busy = .fault (.notRunning (.faulted .divideByZero)) :=
  ⟨rfl, rfl⟩

/-- Both ends of the value range in the registers, a zero and a nonzero divisor, `MIN / -1`. -/
theorem witness_values : InRange busy.cfg.xlen (busy.getReg .r0) ∧ InRange busy.cfg.xlen (busy.getReg .r1) ∧
    busy.getReg .r2 = 0 ∧ busy.getReg .r3 ≠ 0 ∧ busy.getReg .r0 = minValue busy.cfg.xlen ∧ busy.getReg .r3 = -1 ∧
    busy.cfg.divRounding = .truncate ∧ busy.cfg.shiftAmount = .modXlen ∧ busy.cfg.shrKind = .arithmetic ∧ busy.cfg.WellFormed ∧
    0 ≤ busy.getReg .r1 ∧ 0 < busy.getReg .r1 ∧ busy.mem.wf = true := by decide

/-- A core with the alternatives of D3 to D5, at the least width; its amounts are at the two sides of `XLEN`. -/
def other : State :=
  coreAt { xlen := 9, shiftAmount := .saturate, shrKind := .logical, divRounding := .floor } (-256) 9 8 (-1)

theorem witness_other : other.cfg.WellFormed ∧ other.cfg.divRounding = .floor ∧ other.getReg .r1 ≠ 0 ∧
    other.cfg.shiftAmount = .saturate ∧ (other.cfg.xlen : Int) ≤ other.getReg .r1 % 2 ^ other.cfg.xlen ∧
    (other.cfg.xlen : Int) ≤ other.getReg .r3 % 2 ^ other.cfg.xlen ∧ InRange other.cfg.xlen (other.getReg .r0) ∧
    0 ≤ other.getReg .r2 ∧ other.getReg .r2 < other.cfg.xlen ∧ 0 ≤ other.getReg .r1 := by decide

/-- A negative value and an amount inside `0 .. XLEN-1`, at both ends of it, under `saturate` with either kind of SHR. -/
def otherArithmetic : State := { other with cfg := { other.cfg with shrKind := .arithmetic } }

theorem witness_inRangeAmounts : 0 < other.cfg.xlen ∧ InRange other.cfg.xlen (other.getReg .r0) ∧ other.getReg .r0 < 0 ∧
    InRange other.cfg.xlen (other.getReg .r2) ∧ 0 ≤ other.getReg .r2 ∧ other.getReg .r2 + 1 = other.cfg.xlen ∧
    other.cfg.shrKind = .logical ∧ otherArithmetic.cfg.shrKind = .arithmetic ∧
    otherArithmetic.cfg.shiftAmount = .saturate ∧ otherArithmetic.getReg .r2 < otherArithmetic.cfg.xlen ∧
    InRange busy.cfg.xlen (busy.getReg .r2) ∧ busy.getReg .r2 = 0 := by decide

/-- Worked by hand at 9 bits: the pattern of -256 is `1_0000_0000`, so `-256 >> 8` is 1, or -1 with the sign copied in; the
pattern of -1 is nine ones, so `-1 << 8` is -256. -/
theorem test_inRangeAmounts : reg .r1 (.shr .r1 .r0 .r2) other = some 1 ∧
    reg .r1 (.shr .r1 .r0 .r2) otherArithmetic = some (-1) ∧ reg .r1 (.shl .r1 .r3 .r2) other = some (-256) := by decide

theorem witness_logical : (coreAt { Config.standard with shrKind := .logical } MIN 63 0 0).cfg.shrKind = .logical ∧
    (coreAt { Config.standard with shrKind := .logical } MIN 63 0 0).cfg.WellFormed ∧
    (coreAt { Config.standard with shrKind := .logical } MIN 63 0 0).cfg.shiftAmount = .modXlen := by decide

/-- The results the alternatives give: `-256 >> 9` and `1 << 9` move every bit out, `-1 / 9` floors. -/
theorem test_other : reg .r0 (.shr .r0 .r0 .r1) other = some 0 ∧ reg .r0 (.shl .r0 .r2 .r1) other = some 0 ∧
    reg .r0 (.div .r0 .r3 .r1) other = some (-1) ∧ reg .r0 (.rem .r0 .r3 .r1) other = some 8 := by decide

/-- A core whose jump goes to itself, and one whose jump leaves its program. -/
theorem witness_jumps :
    stepResult { busy with pc := 2, program := [.halt, .halt, .jz .r2 2] } (.jz .r2 2) = .taken ∧
    ({ busy with pc := 2, program := [.halt, .halt, .jz .r2 2] } : State).program[(2 : Addr).toNat]? = some (.jz .r2 2) ∧
    jumpTarget (.jz .r2 2) = some 2 ∧ jumpTarget (.jmp 255) = some 255 ∧ stepResult busy (.jmp 255) = .taken ∧
    ({ busy with pc := 2 } : State).fetch = some (.jmp 255) ∧ ({ busy with pc := 2 } : State).proglen ≤ (255 : Addr).toNat := by
  decide

/-- Two stores to one cell, then other instructions (R50). -/
theorem witness_stores : (execAll [.store .r0 0, .store .r1 0, .print .r1] busy).isSome = true ∧
    execAll [.store .r0 0] busy = some ((busy.writeMem 0 MIN).setPc 2) := ⟨rfl, rfl⟩

/-- An instruction that changes a register, one that changes a cell, one that does neither. -/
theorem witness_changes : Reg.r0 ∉ sources (.add .r2 .r1 .r3) ∧ Reg.r2 ∉ sources (.add .r2 .r1 .r3) ∧
    reg .r2 (.load .r2 5) busy = some 5 ∧ busy.getReg .r2 ≠ 5 ∧
    after (.store .r0 0) busy (·.readMem 0) = some MIN ∧ busy.readMem 0 ≠ MIN ∧
    after (.printMem 0) busy (·.trace) = some [.showReg .r1 MAX, .showMem 0 7] := by decide

/-- A line that does not decode and one that does, at a running core without a program; and a core with one. -/
theorem witness_immediate : idle.status = .running ∧ idle.program = [] ∧
    parse idle.cfg.xlen ['H'] = .error (.unknownInstruction ['H']) ∧ parse idle.cfg.xlen ['H', 'A', 'L', 'T'] = .ok .halt ∧
    exec .halt idle = .next { idle with status := .halted } ∧ busy.status = .running ∧ busy.program ≠ [] :=
  ⟨rfl, rfl, by decide, by decide, rfl, rfl, by decide⟩

end Sys2Proof.Tests
end

section
/-! What instructions, steps and runs leave unchanged of the stores: the program and the parameters always (spec 20_memory.md
R48), the memory unless the instruction is a STORE (R41). -/

namespace Sys2Proof.Machine

theorem SameBuild.refl (s : State) : SameBuild s s := ⟨rfl, rfl⟩

theorem SameBuild.trans {s t u : State} (hst : SameBuild s t) (htu : SameBuild t u) : SameBuild s u :=
  ⟨htu.1.trans hst.1, htu.2.trans hst.2⟩

theorem exec_sameBuild {i : Instr} {s t : State} (h : exec i s = .next t) : SameBuild s t := by
  obtain ⟨d, -, -, -, -, rfl⟩ | ⟨-, -, rfl⟩ | ⟨r, a, -, -, rfl⟩ | ⟨a, -, -, rfl⟩ | ⟨-, -, rfl⟩ | ⟨r, -, -, rfl⟩ |
    ⟨a, -, -, rfl⟩ | ⟨-, -, rfl⟩ := exec_cases h
  all_goals exact ⟨rfl, rfl⟩

theorem step_sameBuild {s t : State} (h : step s = .next t) : SameBuild s t := by
  obtain ⟨-, ⟨-, rfl⟩ | ⟨i, -, hi⟩⟩ := step_cases h
  · exact ⟨rfl, rfl⟩
  · exact exec_sameBuild hi

/-- A run of at least one step takes it, then runs on from the state it leaves. -/
theorem run_succ_cases {k : Nat} {s t : State} (h : Sys2Proof.core.run (k + 1) s = .next t) :
    ∃ u, step s = .next u ∧ Sys2Proof.core.run k u = .next t := by
  cases hs : step s with
  | next u => exact ⟨u, rfl, (run_succ_next k hs).symm.trans h⟩
  | fault f => exact nomatch (run_succ_fault k hs).symm.trans h
  | refused r => exact nomatch (run_succ_refused k hs).symm.trans h

theorem run_sameBuild (k : Nat) {s t : State} (h : Sys2Proof.core.run k s = .next t) : SameBuild s t := by
  induction k generalizing s with
  | zero =>
    obtain rfl := Host.Outcome.next.inj ((run_zero s).symm.trans h)
    exact SameBuild.refl s
  | succ k ih =>
    obtain ⟨u, hu, ht⟩ := run_succ_cases h
    exact (step_sameBuild hu).trans (ih ht)

/-- Settles O29, by induction on the number of steps: every step keeps the program and the parameters. -/
theorem programStoreIsNeverWritten : Obligations.ProgramStoreIsNeverWritten := fun k _ _ h => run_sameBuild k h

theorem exec_store (r : Reg) (a : Addr) (s : State) :
    exec (.store r a) s = .next ((s.writeMem a (s.getReg r)).setPc (s.pc + 1)) := rfl

/-- The memory after an instruction is the one before it, or the instruction is a STORE. -/
theorem exec_mem_eq_or_store {i : Instr} {s t : State} (h : exec i s = .next t) : t.mem = s.mem ∨ ∃ r a, i = .store r a := by
  obtain ⟨d, -, -, -, -, rfl⟩ | ⟨-, -, rfl⟩ | ⟨r, a, hi, -, -⟩ | ⟨a, -, -, rfl⟩ | ⟨-, -, rfl⟩ | ⟨r, -, -, rfl⟩ |
    ⟨a, -, -, rfl⟩ | ⟨-, -, rfl⟩ := exec_cases h
  case inr.inr.inl => exact .inr ⟨r, a, hi⟩
  all_goals exact .inl rfl

/-- STORE replaces the content of its cell and of no other (R41, R101). -/
theorem exec_store_cells {r : Reg} {a : Addr} {s t : State} (hm : s.mem.wf = true) (h : exec (.store r a) s = .next t) :
    t.readMem a = s.getReg r ∧ SameCellsBut a s t := by
  obtain rfl := Host.Outcome.next.inj ((exec_store r a s).symm.trans h)
  exact ⟨State.readMem_writeMem_same hm a _, fun _ hb => State.readMem_writeMem_other s _ hb⟩

/-- Settles O51: an instruction that is no STORE keeps the memory, and a STORE keeps every cell but its own. -/
theorem onlyStoreChangesMemory : Obligations.OnlyStoreChangesMemory := by
  intro i s t hm h
  refine ⟨fun a hne => ?_, ?_⟩
  · obtain hmem | ⟨r, b, rfl⟩ := exec_mem_eq_or_store h
    · exact absurd (congrArg (Memory.read · a.toNat) hmem) hne
    · obtain ⟨-, hother⟩ := exec_store_cells hm h
      have hab : a = b := by_contra fun hab => hne (hother a hab)
      exact ⟨r, hab ▸ rfl⟩
  · rintro r a rfl
    exact exec_store_cells hm h

end Sys2Proof.Machine
end

section
/-! The text level's checks one after another (spec 30_encoding.md R62 to R73): what token 0 selects, the errors an operand
token and a mnemonic's operands can give, and the grammar of PRINT. -/

namespace Sys2Proof

/-! ### The vocabulary (R62) -/

theorem Mnemonic.mem_all (k : Mnemonic) : k ∈ Mnemonic.all := by cases k <;> decide

theorem Mnemonic.ofText_eq_none {tok : List Char} : Mnemonic.ofText tok = none ↔ ∀ k : Mnemonic, k.text ≠ tok := by
  simp [Mnemonic.ofText, Mnemonic.mem_all]

/-- No two mnemonics share a spelling, so reading a spelling gives its mnemonic back. -/
@[simp] theorem Mnemonic.ofText_text (k : Mnemonic) : Mnemonic.ofText k.text = some k := by cases k <;> decide

/-! ### Operand tokens (R68, R70, R71) -/

/-- A character read as a decimal digit is that digit's character. -/
theorem decChar_of_decDigit {c : Char} {n : Nat} (h : decDigit c = some n) : decChar n = c := by
  unfold decDigit at h
  split at h
  · next hc =>
    obtain rfl := Option.some.inj h
    rw [decChar, Nat.add_sub_of_le hc.1, Char.ofNat_toNat]
  · exact nomatch h

theorem Reg.index_of_ofIndex {n : Nat} {r : Reg} (h : Reg.ofIndex n = some r) : r.index = n := by
  unfold Reg.ofIndex at h
  split at h
  case h_5 => exact nomatch h
  all_goals
    obtain rfl := Option.some.inj h
    rfl

@[simp] theorem registerToken_text (r : Reg) : registerToken r.text = .ok r := by cases r <;> decide

/-- A token is a register's spelling and gives that register, or it gives `InvalidRegister` (R68). -/
theorem registerToken_cases (tok : List Char) :
    (∃ r : Reg, tok = r.text ∧ registerToken tok = .ok r) ∨ registerToken tok = .error .invalidRegister := by
  fun_cases registerToken tok
  case case1 d r hr =>
    obtain ⟨n, hn, hr⟩ := Option.bind_eq_some_iff.1 hr
    refine .inl ⟨r, ?_, rfl⟩
    rw [Reg.text, Reg.index_of_ofIndex hr, decChar_of_decDigit hn]
  all_goals exact .inr rfl

/-- Settles O13: a register's spelling reads back as it, and the four listed tokens are the registers' spellings. -/
theorem registerTokensAreR0ToR3 : Obligations.RegisterTokensAreR0ToR3 := by
  refine ⟨registerToken_text .r0, registerToken_text .r1, registerToken_text .r2, registerToken_text .r3, fun tok htok => ?_⟩
  obtain ⟨r, rfl, -⟩ | herr := registerToken_cases tok
  · have hmem : r.text ∈ [['R', '0'], ['R', '1'], ['R', '2'], ['R', '3']] := by cases r <;> decide
    exact absurd hmem htok
  · exact herr

/-! ### What an answer is followed by, and the errors it can be -/

@[simp] theorem Decoded.ok_bind {α β : Type} (a : α) (f : α → Decoded β) : (Decoded.ok a).bind f = f a := rfl

@[simp] theorem Decoded.error_bind {α β : Type} (e : DecodeError) (f : α → Decoded β) : (Decoded.error e).bind f = .error e :=
  rfl

/-- The answer, if an error, is one of the list. -/
def Decoded.ErrorsIn {α : Type} (L : List DecodeError) (x : Decoded α) : Prop := ∀ e, x = .error e → e ∈ L

theorem Decoded.errorsIn_ok {α : Type} {L : List DecodeError} (a : α) : (Decoded.ok a).ErrorsIn L := fun _ h => nomatch h

theorem Decoded.errorsIn_unsettled {α : Type} {L : List DecodeError} : (Decoded.unsettled : Decoded α).ErrorsIn L :=
  fun _ h => nomatch h

theorem Decoded.errorsIn_error {α : Type} {L : List DecodeError} {e : DecodeError} (he : e ∈ L) :
    (Decoded.error e : Decoded α).ErrorsIn L := fun _ h => Decoded.error.inj h ▸ he

theorem Decoded.ErrorsIn.bind {α β : Type} {L : List DecodeError} {x : Decoded α} {f : α → Decoded β} (hx : x.ErrorsIn L)
    (hf : ∀ a, (f a).ErrorsIn L) : (x.bind f).ErrorsIn L := by
  cases x with
  | ok a => exact hf a
  | error e => exact errorsIn_error (hx e rfl)
  | unsettled => exact errorsIn_unsettled

/-- The errors the operand tokens of a mnemonic can give: those of R74 that come after token 0 is recognised. -/
def operandErrors (k : Mnemonic) : List DecodeError :=
  [.arityError k, .invalidRegister, .invalidAddress, .invalidValue, .invalidPrintOperand]

section
open Decoded

variable (k : Mnemonic) (ops : List (List Char))

theorem registerToken_errorsIn (tok : List Char) : (registerToken tok).ErrorsIn (operandErrors k) := by
  obtain ⟨r, -, hr⟩ | hr := registerToken_cases tok
  · exact hr ▸ errorsIn_ok r
  · exact hr ▸ errorsIn_error (by simp [operandErrors])

theorem addressToken_errorsIn (tok : List Char) : (addressToken tok).ErrorsIn (operandErrors k) := by
  fun_cases addressToken tok
  case case1 => exact errorsIn_ok _
  all_goals exact errorsIn_error (by simp [operandErrors])

theorem valueToken_errorsIn (xlen : Nat) (tok : List Char) : (valueToken xlen tok).ErrorsIn (operandErrors k) := by
  fun_cases valueToken xlen tok
  case case1 => exact errorsIn_unsettled
  case case2 => exact errorsIn_ok _
  all_goals exact errorsIn_error (by simp [operandErrors])

theorem arityError_errorsIn {α : Type} : (.error (.arityError k) : Decoded α).ErrorsIn (operandErrors k) :=
  errorsIn_error (by simp [operandErrors])

theorem parseRRR_errorsIn (mk : Reg → Reg → Reg → Instr) : (parseRRR k mk ops).ErrorsIn (operandErrors k) := by
  fun_cases parseRRR k mk ops
  · exact (registerToken_errorsIn k _).bind fun _ => (registerToken_errorsIn k _).bind fun _ =>
      (registerToken_errorsIn k _).bind fun _ => errorsIn_ok _
  · exact arityError_errorsIn k

theorem parseRA_errorsIn (mk : Reg → Addr → Instr) : (parseRA k mk ops).ErrorsIn (operandErrors k) := by
  fun_cases parseRA k mk ops
  · exact (registerToken_errorsIn k _).bind fun _ => (addressToken_errorsIn k _).bind fun _ => errorsIn_ok _
  · exact arityError_errorsIn k

theorem parseLoad_errorsIn (xlen : Nat) : (parseLoad xlen ops).ErrorsIn (operandErrors .load) := by
  fun_cases parseLoad xlen ops
  · exact (registerToken_errorsIn _ _).bind fun _ => (valueToken_errorsIn _ _ _).bind fun _ => errorsIn_ok _
  · exact arityError_errorsIn _

theorem parseNot_errorsIn : (parseNot ops).ErrorsIn (operandErrors .not) := by
  fun_cases parseNot ops
  · exact (registerToken_errorsIn _ _).bind fun _ => (registerToken_errorsIn _ _).bind fun _ => errorsIn_ok _
  · exact arityError_errorsIn _

theorem parseJmp_errorsIn : (parseJmp ops).ErrorsIn (operandErrors .jmp) := by
  fun_cases parseJmp ops
  · exact (addressToken_errorsIn _ _).bind fun _ => errorsIn_ok _
  · exact arityError_errorsIn _

theorem parsePrint_errorsIn : (parsePrint ops).ErrorsIn (operandErrors .print) := by
  fun_cases parsePrint ops
  case case3 => exact (addressToken_errorsIn _ _).bind fun _ => errorsIn_ok _
  case case5 => exact (registerToken_errorsIn _ _).bind fun _ => errorsIn_ok _
  case case7 => exact errorsIn_error (by simp [operandErrors])
  all_goals exact arityError_errorsIn _

theorem parseHalt_errorsIn : (parseHalt ops).ErrorsIn (operandErrors .halt) := by
  fun_cases parseHalt ops
  · exact errorsIn_ok _
  · exact arityError_errorsIn _

theorem parseOperands_errorsIn (xlen : Nat) : (parseOperands xlen k ops).ErrorsIn (operandErrors k) := by
  cases k with
  | load => exact parseLoad_errorsIn ops xlen
  | store | jz | jnz => exact parseRA_errorsIn _ ops _
  | not => exact parseNot_errorsIn ops
  | jmp => exact parseJmp_errorsIn ops
  | print => exact parsePrint_errorsIn ops
  | halt => exact parseHalt_errorsIn ops
  | _ => exact parseRRR_errorsIn _ ops _

end

/-! ### The line (R62, R73) -/

theorem parse_of_unknown {xlen : Nat} {line t : List Char} {ops : List (List Char)} (hline : tokens line = t :: ops)
    (ht : Mnemonic.ofText t = none) : parse xlen line = .error (.unknownInstruction t) := by
  simp [parse, hline, ht]

theorem parse_of_known {xlen : Nat} {line t : List Char} {ops : List (List Char)} {k : Mnemonic}
    (hline : tokens line = t :: ops) (ht : Mnemonic.ofText t = some k) :
    parse xlen line = parseOperands xlen k ops := by
  simp [parse, hline, ht]

/-- Settles O10: a mnemonic's operands never give `UnknownInstruction`, so only the match against the vocabulary does. -/
theorem unknownMnemonicIsReportedFirst : Obligations.UnknownMnemonicIsReportedFirst := by
  intro xlen line t ops hline
  rw [← Mnemonic.ofText_eq_none]
  refine ⟨fun herr => ?_, parse_of_unknown hline⟩
  cases ht : Mnemonic.ofText t with
  | none => rfl
  | some k =>
    have hmem : .unknownInstruction t ∈ operandErrors k :=
      parseOperands_errorsIn k ops xlen _ ((parse_of_known hline ht).symm.trans herr)
    simp [operandErrors] at hmem

/-! ### The grammar of PRINT (R72) -/

theorem parsePrint_of_length {ops : List (List Char)} (h : ops.length = 0 ∨ 2 < ops.length) :
    parsePrint ops = .error (.arityError .print) := by
  match ops, h with
  | [], _ => rfl
  | _ :: _ :: _ :: _, _ => rfl

theorem parsePrint_mem (t : List Char) : parsePrint [['M', 'E', 'M'], t] = (addressToken t).bind fun a => .ok (.printMem a) :=
  rfl

theorem parsePrint_mem_alone : parsePrint [['M', 'E', 'M']] = .error (.arityError .print) := rfl

theorem parsePrint_register (cs : List Char) :
    parsePrint ['R' :: cs] = (registerToken ('R' :: cs)).bind fun r => .ok (.print r) := by
  simp [parsePrint]

theorem parsePrint_register_extra (cs t : List Char) : parsePrint ['R' :: cs, t] = .error (.arityError .print) := by
  simp [parsePrint]

theorem parsePrint_other {t : List Char} {ts : List (List Char)} (hlen : ts.length ≤ 1) (hmem : t ≠ ['M', 'E', 'M'])
    (hreg : t.head? ≠ some 'R') : parsePrint (t :: ts) = .error .invalidPrintOperand := by
  match ts, hlen with
  | [], _ | [_], _ => simp [parsePrint, hmem, hreg]

/-- Settles O12: a line whose token 0 is PRINT is read by `parsePrint`, which has one equation for each clause. -/
theorem printGrammar : Obligations.PrintGrammar := by
  intro xlen line ops hline
  rw [show parse xlen line = parsePrint ops from parse_of_known hline (Mnemonic.ofText_text .print)]
  refine ⟨parsePrint_of_length, ?_, ?_, ?_, ?_, ?_⟩
  · rintro t rfl
    rw [parsePrint_mem]
    exact ⟨fun a ha => by rw [ha, Decoded.ok_bind], fun he => by rw [he, Decoded.error_bind]⟩
  · rintro rfl
    exact parsePrint_mem_alone
  · rintro cs rfl
    rw [parsePrint_register]
    exact ⟨fun r hr => by rw [hr, Decoded.ok_bind], fun he => by rw [he, Decoded.error_bind]⟩
  · rintro cs t rfl
    exact parsePrint_register_extra cs t
  · rintro t ts rfl hlen hmem hreg
    exact parsePrint_other hlen hmem hreg

end Sys2Proof
end

section
/-! Arithmetic in terms of the spec's own integers (spec 00_scope.md R9, 41_arithmetic.md R115, R116): what an instruction with
a destination and one that divides by zero do as a whole, the wrapped result, and truncated division with its one overflow. -/

namespace Sys2Proof

/-! ### Wrapped and in-range results -/

/-- `wrap` meets R9's description of it. -/
theorem isWrap_wrap (n : Nat) (x : Int) : Machine.IsWrap n x (wrap n x) := by
  refine ⟨wrap_inRange n x, ?_⟩
  obtain ⟨k, hk⟩ := Int.dvd_bmod_sub_self (x := x) (m := 2 ^ n)
  refine ⟨k, ?_⟩
  rw [wrap_eq_bmod, mul_comm]
  push_cast at hk
  omega

theorem wrap_add_two_pow (n : Nat) (x : Int) : wrap n (x + 2 ^ n) = wrap n x := by
  rw [wrap_eq_bmod, wrap_eq_bmod]
  exact_mod_cast Int.add_bmod_right x (2 ^ n)

theorem minValue_inRange (n : Nat) : InRange n (minValue n) := by
  have hpos : (0 : Int) < 2 ^ (n - 1) := by positivity
  refine ⟨le_rfl, ?_⟩
  simp only [minValue, maxValue]
  omega

/-- The exact quotient of `MIN / -1` lies `2^XLEN` above `MIN` and wraps to it (R113). -/
theorem wrap_neg_minValue {n : Nat} (hn : 0 < n) : wrap n (-minValue n) = minValue n := by
  have hneg : -minValue n = minValue n + 2 ^ n := by
    rw [two_pow_split hn, minValue]
    ring
  rw [hneg, wrap_add_two_pow, wrap_of_inRange hn (minValue_inRange n)]

/-- `MIN / -1` is the one quotient out of range: a divisor of magnitude 2 or more at least halves the magnitude. -/
theorem tdiv_inRange {n : Nat} {x y : Int} (hx : InRange n x) (hy : y ≠ 0) (hov : ¬ (x = minValue n ∧ y = -1)) :
    InRange n (x.tdiv y) := by
  by_cases hneg : y = -1
  · have hq : x.tdiv y = -x := by rw [hneg, Int.tdiv_neg, Int.tdiv_one]
    simp only [InRange, minValue, maxValue] at *
    omega
  · by_cases hone : y = 1
    · rwa [hone, Int.tdiv_one]
    · have hq : (x.tdiv y).natAbs ≤ x.natAbs / 2 := by
        rw [Int.natAbs_tdiv]
        exact Nat.div_le_div_left (by omega) (by omega)
      have hpos : (0 : Int) < 2 ^ (n - 1) := by positivity
      simp only [InRange, minValue, maxValue] at *
      omega

end Sys2Proof

namespace Sys2Proof.Machine

/-! ### Whole effects -/

theorem stepResult_of_dest {s : State} {i : Instr} {d : Reg} (hd : dest i = some d) (hz : ¬ DividesByZero s i) :
    stepResult s i = .cont := by
  cases i with
  | div _ _ b => exact if_neg (mt (State.isZero_iff s b).1 hz)
  | rem _ _ b => exact if_neg (mt (State.isZero_iff s b).1 hz)
  | store | jmp | jz | jnz | print | printMem | halt => exact nomatch hd
  | _ => rfl

theorem stepResult_of_dividesByZero {s : State} {i : Instr} (hz : DividesByZero s i) :
    stepResult s i = .faulted .divideByZero := by
  cases i with
  | div _ _ b => exact if_pos ((State.isZero_iff s b).2 hz)
  | rem _ _ b => exact if_pos ((State.isZero_iff s b).2 hz)
  | _ => exact hz.elim

/-- A well-formed instruction with a destination has the one effect of writing its result there, unless it divides by zero. -/
theorem completesInto_of_dest {s : State} {i : Instr} {d : Reg} {P : Int → Prop} (hd : dest i = some d)
    (hw : i.wellFormed s.cfg.xlen = true) (hz : ¬ DividesByZero s i) (hP : P (resultOf s i)) : CompletesInto i d s P :=
  ⟨_, exec_writes hd hw hz, by simpa using hP, fun r hr => by simp [State.getReg_setReg_other s _ hr], fun a => by simp,
    ⟨rfl, rfl⟩, ⟨rfl, rfl⟩, rfl, stepResult_of_dest hd hz⟩

/-- A division by zero has exactly the effects of the runtime fault (R160). -/
theorem raisesDivideByZero_of_dividesByZero {s : State} {i : Instr} (hz : DividesByZero s i) : RaisesDivideByZero i s :=
  ⟨_, exec_faults hz, stepResult_of_dividesByZero hz, rfl, rfl, rfl, fun _ => rfl, fun _ => rfl, ⟨rfl, rfl⟩⟩

/-! ### ADD, SUB and MUL (R115) -/

/-- Settles O34: each of the three has the one effect of writing the wrapped exact result. -/
theorem arithmeticWraps : Obligations.ArithmeticWraps := fun s _ _ _ =>
  ⟨completesInto_of_dest rfl rfl id (isWrap_wrap s.cfg.xlen _), completesInto_of_dest rfl rfl id (isWrap_wrap s.cfg.xlen _),
    completesInto_of_dest rfl rfl id (isWrap_wrap s.cfg.xlen _)⟩

/-! ### DIV and REM at the default rounding (R116) -/

theorem aluDiv_truncate {c : Config} (hc : c.divRounding = .truncate) (x y : Int) :
    aluDiv c x y = wrap c.xlen (x.tdiv y) := by
  simp only [aluDiv, quotient, hc]

theorem aluRem_truncate {c : Config} (hc : c.divRounding = .truncate) (x y : Int) : aluRem c x y = x.tmod y := by
  simp only [aluRem_eq, hc]

/-- A truncated remainder is zero or has the dividend's sign. -/
theorem truncatedDivision_tdiv_tmod (x : Int) {y : Int} (hy : y ≠ 0) :
    TruncatedDivision x y (x.tdiv y) (x.tmod y) := by
  refine ⟨(Int.tdiv_mul_add_tmod x y).symm, natAbs_tmod_lt x hy, fun hr => ?_, fun hr => ?_⟩
  · by_contra hx
    have h := Int.tmod_nonneg (a := -x) y (by omega)
    rw [Int.neg_tmod] at h
    omega
  · by_contra hx
    have h := Int.tmod_nonneg (a := x) y (by omega)
    omega

theorem aluDiv_truncate_exact {c : Config} {x y : Int} (hc : c.divRounding = .truncate) (hn : 0 < c.xlen)
    (hx : InRange c.xlen x) (hy : y ≠ 0) (hov : ¬ (x = minValue c.xlen ∧ y = -1)) : aluDiv c x y = x.tdiv y := by
  rw [aluDiv_truncate hc, wrap_of_inRange hn (tdiv_inRange hx hy hov)]

theorem aluDiv_truncate_overflow {c : Config} (hc : c.divRounding = .truncate) (hn : 0 < c.xlen) :
    aluDiv c (minValue c.xlen) (-1) = minValue c.xlen := by
  rw [aluDiv_truncate hc, Int.tdiv_neg, Int.tdiv_one, wrap_neg_minValue hn]

/-- Settles O35: quotient and remainder are `Int.tdiv` and `Int.tmod`, and the quotient is in range but for `MIN / -1`. -/
theorem divisionTruncates : Obligations.DivisionTruncates := by
  intro s d a b hc hn ha _
  refine ⟨fun hz => ⟨raisesDivideByZero_of_dividesByZero hz, raisesDivideByZero_of_dividesByZero hz⟩, fun hb => ?_⟩
  refine ⟨_, _, truncatedDivision_tdiv_tmod (s.getReg a) hb, ?_, fun hov => ?_, fun hmin hneg => ⟨?_, ?_⟩⟩
  · exact completesInto_of_dest rfl rfl hb (aluRem_truncate hc _ _)
  · exact completesInto_of_dest rfl rfl hb (aluDiv_truncate_exact hc hn ha hb hov)
  · rw [hneg, Int.tmod_neg, Int.tmod_one]
  · refine completesInto_of_dest rfl rfl hb ?_
    simp only [resultOf, hmin, hneg]
    exact aluDiv_truncate_overflow hc hn

end Sys2Proof.Machine
end

section
/-! The logic instructions bit by bit (spec 42_logic_shift.md R126): bit `k` of a value is bit `k` of its pattern, so the
operations on patterns act on the bits of values, and their integer readings are equations of patterns. -/

namespace Sys2Proof

/-! ### The pattern of a value -/

/-- A value in range is the signed reading of its pattern (R9). -/
theorem signed_pattern {n : Nat} {x : Int} (hn : 0 < n) (hx : InRange n x) : signed (pattern n x) = x :=
  wrap_of_inRange hn hx

@[simp] theorem pattern_zero (n : Nat) : pattern n 0 = 0#n := BitVec.ofInt_ofNat n 0

@[simp] theorem pattern_neg_one (n : Nat) : pattern n (-1) = BitVec.allOnes n := by
  rw [pattern, BitVec.ofInt_neg, BitVec.ofInt_ofNat, BitVec.neg_one_eq_allOnes]

/-- Complementing a pattern negates its value and takes one away, modulo `2^XLEN`. -/
theorem not_pattern (n : Nat) (x : Int) : ~~~ pattern n x = pattern n (-x - 1) := by
  rw [BitVec.not_eq_neg_add, pattern, pattern, sub_eq_add_neg, sub_eq_add_neg, BitVec.ofInt_add, BitVec.ofInt_neg,
    BitVec.ofInt_neg, BitVec.ofInt_ofNat]

theorem neg_sub_one_inRange {n : Nat} {x : Int} (hx : InRange n x) : InRange n (-x - 1) := by
  simp only [InRange, minValue, maxValue] at *
  omega

end Sys2Proof

namespace Sys2Proof.Machine

/-! ### The bits of a value -/

theorem bitOf_natCast (m k : Nat) : bitOf m k = m.testBit k := by
  rw [bitOf, Nat.testBit_eq_decide_div_mod_eq]
  exact decide_eq_decide.2 (by exact_mod_cast Iff.rfl)

/-- A multiple of `2^n` added to a value leaves the bits below `n` alone. -/
theorem bitOf_add_mul_two_pow (x c : Int) {n k : Nat} (hk : k < n) : bitOf (x + c * 2 ^ n) k = bitOf x k := by
  obtain ⟨j, rfl⟩ := Nat.exists_eq_add_of_lt hk
  have hsplit : x + c * 2 ^ (k + j + 1) = x + c * 2 ^ j * 2 * 2 ^ k := by ring
  rw [bitOf, bitOf, hsplit, Int.add_mul_ediv_right _ _ (by positivity), Int.add_mul_emod_self_right]

/-- The signed reading of a pattern has the pattern's bits. -/
theorem bitOf_signed {n k : Nat} (v : BitVec n) (hk : k < n) : bitOf (signed v) k = v.getLsbD k := by
  have hbits : bitOf v.toNat k = v.getLsbD k := by rw [bitOf_natCast, BitVec.testBit_toNat]
  obtain ⟨c, hc⟩ : ∃ c : Int, signed v = v.toNat + c * 2 ^ n := by
    rw [signed, BitVec.toInt_eq_toNat_cond]
    split
    · exact ⟨0, by simp⟩
    · exact ⟨-1, by push_cast; ring⟩
  rw [hc, bitOf_add_mul_two_pow _ _ hk, hbits]

/-- The pattern of a value in range has the value's bits. -/
theorem getLsbD_pattern {n k : Nat} {x : Int} (hk : k < n) (hx : InRange n x) : (pattern n x).getLsbD k = bitOf x k := by
  rw [← bitOf_signed _ hk, signed_pattern (by omega) hx]

/-! ### The logic operations (R126) -/

section
variable {c : Config} {x y : Int} {k : Nat} (hk : k < c.xlen) (hx : InRange c.xlen x) (hy : InRange c.xlen y)
include hk hx

theorem bitOf_aluNot : bitOf (aluNot c x) k = !bitOf x k := by
  rw [aluNot, bitOf_signed _ hk, BitVec.getLsbD_not, getLsbD_pattern hk hx, decide_eq_true hk, Bool.true_and]

include hy

theorem bitOf_aluAnd : bitOf (aluAnd c x y) k = (bitOf x k && bitOf y k) := by
  rw [aluAnd, bitOf_signed _ hk, BitVec.getLsbD_and, getLsbD_pattern hk hx, getLsbD_pattern hk hy]

theorem bitOf_aluOr : bitOf (aluOr c x y) k = (bitOf x k || bitOf y k) := by
  rw [aluOr, bitOf_signed _ hk, BitVec.getLsbD_or, getLsbD_pattern hk hx, getLsbD_pattern hk hy]

theorem bitOf_aluXor : bitOf (aluXor c x y) k = (bitOf x k ^^ bitOf y k) := by
  rw [aluXor, bitOf_signed _ hk, BitVec.getLsbD_xor, getLsbD_pattern hk hx, getLsbD_pattern hk hy]

end

theorem aluXor_self (c : Config) (x : Int) : aluXor c x x = 0 := by
  rw [aluXor, BitVec.xor_self, signed, BitVec.toInt_zero]

theorem aluXor_neg_one (c : Config) (x : Int) : aluXor c x (-1) = aluNot c x := by
  rw [aluXor, pattern_neg_one, BitVec.xor_allOnes, aluNot]

section
variable {c : Config} {x : Int} (hn : 0 < c.xlen) (hx : InRange c.xlen x)
include hn hx

theorem aluAnd_neg_one : aluAnd c x (-1) = x := by
  rw [aluAnd, pattern_neg_one, BitVec.and_allOnes, signed_pattern hn hx]

theorem aluOr_zero : aluOr c x 0 = x := by
  rw [aluOr, pattern_zero, BitVec.or_zero, signed_pattern hn hx]

theorem aluNot_eq : aluNot c x = -x - 1 := by
  rw [aluNot, not_pattern, signed_pattern hn (neg_sub_one_inRange hx)]

end

/-- Settles O39: each of the four has the one effect of writing a signed reading, whose bits and integer readings are those of
the operation on patterns. -/
theorem bitwiseActsOnEveryBit : Obligations.BitwiseActsOnEveryBit := by
  intro s d a b hn ha hb
  refine ⟨completesInto_of_dest rfl rfl id ⟨signed_inRange _, fun k hk => bitOf_aluAnd hk ha hb, fun hneg => ?_⟩,
    completesInto_of_dest rfl rfl id ⟨signed_inRange _, fun k hk => bitOf_aluOr hk ha hb, fun hzero => ?_⟩,
    completesInto_of_dest rfl rfl id
      ⟨signed_inRange _, fun k hk => bitOf_aluXor hk ha hb, fun hself => ?_, fun hneg => ?_⟩,
    completesInto_of_dest rfl rfl id ⟨signed_inRange _, fun k hk => bitOf_aluNot hk ha, aluNot_eq hn ha⟩⟩
  · rw [resultOf, hneg, aluAnd_neg_one hn ha]
  · rw [resultOf, hzero, aluOr_zero hn ha]
  · rw [resultOf, hself, aluXor_self]
  · rw [resultOf, hneg, aluXor_neg_one, aluNot_eq hn ha]

end Sys2Proof.Machine
end

section
/-! The comparisons as integers (spec 43_compare.md R136): the truth value of a relation is 1 or 0, negating the relation takes it
from 1, and the three strict outcomes of two integers sum to 1. -/

namespace Sys2Proof.Machine

/-! ### Truth values -/

theorem truth_eq_zero_or_one (b : Bool) : truth b = 0 ∨ truth b = 1 := by cases b <;> decide

@[simp] theorem truth_eq_one_iff (b : Bool) : truth b = 1 ↔ b = true := by cases b <;> decide

theorem truth_not (b : Bool) : truth (!b) = 1 - truth b := by cases b <;> rfl

/-! ### The six relations (R130 to R135) -/

theorem cmpGt_eq_one_iff (x y : Int) : cmpGt x y = 1 ↔ y < x := by simp [cmpGt]

theorem cmpLt_eq_one_iff (x y : Int) : cmpLt x y = 1 ↔ x < y := by simp [cmpLt]

theorem cmpEq_eq_one_iff (x y : Int) : cmpEq x y = 1 ↔ x = y := by simp [cmpEq]

theorem cmpGte_eq (x y : Int) : cmpGte x y = 1 - cmpLt x y := by
  rw [cmpGte, cmpLt, ← truth_not, ← decide_not, decide_eq_decide.2 not_lt]

theorem cmpLte_eq (x y : Int) : cmpLte x y = 1 - cmpGt x y := by
  rw [cmpLte, cmpGt, ← truth_not, ← decide_not, decide_eq_decide.2 not_lt]

theorem cmpNeq_eq (x y : Int) : cmpNeq x y = 1 - cmpEq x y := by
  rw [cmpNeq, cmpEq, ← truth_not, ← decide_not]

/-- Of two integers exactly one of greater, less and equal holds. -/
theorem cmpGt_add_cmpLt_add_cmpEq (x y : Int) : cmpGt x y + cmpLt x y + cmpEq x y = 1 := by
  rcases lt_trichotomy x y with h | rfl | h
  · simp [cmpGt, cmpLt, cmpEq, truth, h, h.le, h.ne]
  · simp [cmpGt, cmpLt, cmpEq, truth]
  · simp [cmpGt, cmpLt, cmpEq, truth, h, h.le, h.ne']

/-- Settles O43: each of the six has the one effect of writing the truth value of its relation. -/
theorem comparisonsWriteOneOrZero : Obligations.ComparisonsWriteOneOrZero := by
  intro s d a b
  refine ⟨_, _, _, _, _, _, completesInto_of_dest rfl rfl id rfl, completesInto_of_dest rfl rfl id rfl,
    completesInto_of_dest rfl rfl id rfl, completesInto_of_dest rfl rfl id rfl, completesInto_of_dest rfl rfl id rfl,
    completesInto_of_dest rfl rfl id rfl, ?_, cmpGt_eq_one_iff _ _, cmpLt_eq_one_iff _ _, cmpEq_eq_one_iff _ _,
    cmpGt_add_cmpLt_add_cmpEq _ _, cmpGte_eq _ _, cmpLte_eq _ _, cmpNeq_eq _ _⟩
  simp only [List.forall_mem_cons, List.not_mem_nil, false_implies, implies_true, and_true]
  exact ⟨truth_eq_zero_or_one _, truth_eq_zero_or_one _, truth_eq_zero_or_one _, truth_eq_zero_or_one _,
    truth_eq_zero_or_one _, truth_eq_zero_or_one _⟩

end Sys2Proof.Machine
end

section
/-! The runtime fault and its one cause (spec 60_exceptions.md R160): a faulted step result and a fault event each show that the
instruction divides by zero. -/

namespace Sys2Proof.Machine

theorem dividesByZero_iff {s : State} {i : Instr} :
    DividesByZero s i ↔ ∃ d a b, (i = .div d a b ∨ i = .rem d a b) ∧ s.getReg b = 0 := by
  constructor
  · intro hz
    cases i with
    | div d a b => exact ⟨d, a, b, .inl rfl, hz⟩
    | rem d a b => exact ⟨d, a, b, .inr rfl, hz⟩
    | _ => exact hz.elim
  · rintro ⟨d, a, b, rfl | rfl, hb⟩
    · exact hb
    · exact hb

/-- The converse of `stepResult_of_dividesByZero`, for every cause. -/
theorem dividesByZero_of_stepResult_faulted {s : State} {i : Instr} {c : Cause} (h : stepResult s i = .faulted c) :
    DividesByZero s i := by
  cases i with
  | div _ _ _ | rem _ _ _ =>
    by_contra hz
    exact nomatch (stepResult_of_dest rfl hz).symm.trans h
  | jz r _ | jnz r _ => cases hb : s.isZero r <;> simp [stepResult, hb] at h
  | _ => exact nomatch h

/-- The other events an instruction can append are those of PRINT and PRINT MEM. -/
theorem dividesByZero_of_faultEvent {s t : State} {i : Instr} {c : Cause} {p : Int} (h : exec i s = .next t)
    (he : t.trace = s.trace ++ [.fault c p]) : DividesByZero s i := by
  obtain ⟨d, -, -, -, -, rfl⟩ | ⟨hz, -, -⟩ | ⟨r, a, -, -, rfl⟩ | ⟨a, -, -, rfl⟩ | ⟨-, -, rfl⟩ | ⟨r, -, -, rfl⟩ |
    ⟨a, -, -, rfl⟩ | ⟨-, -, rfl⟩ := exec_cases h
  case inr.inl => exact hz
  all_goals simp at he

theorem step_ne_next_of_faulted {s : State} {c : Cause} (hs : s.status = .faulted c) (t : State) : step s ≠ .next t := by
  intro h
  obtain ⟨hrun, -⟩ := step_cases h
  exact nomatch hs.symm.trans hrun

/-- Settles O38: a division by zero has exactly the fault's effects, each sign of a fault comes from one, and a step needs a
running core. -/
theorem divideByZeroIsTheOnlyFault : Obligations.DivideByZeroIsTheOnlyFault := by
  refine ⟨fun s d a b hb => ⟨raisesDivideByZero_of_dividesByZero hb, raisesDivideByZero_of_dividesByZero hb⟩,
    fun i s t c h hfault => dividesByZero_iff.1 ?_, fun s t c hs => step_ne_next_of_faulted hs t⟩
  obtain hres | ⟨p, he⟩ := hfault
  · exact dividesByZero_of_stepResult_faulted hres
  · exact dividesByZero_of_faultEvent h he

end Sys2Proof.Machine
end

section
/-! The word level (spec 30_encoding.md R81 to R86): the fields of an instruction's word, the checks that let fields through, and
the words a row's mask and match value select. -/

namespace Sys2Proof

/-! ### Fields and words -/

/-- A word's number fits its width. -/
theorem Fields.word_lt {f : Fields} {n : Nat} (hf : f.Bounded) (himm : f.imm < 2 ^ n) : f.word < 2 ^ (16 + n) := by
  obtain ⟨hop, ha, hb, hc, hm, hz⟩ := hf
  rw [pow_add, Fields.word]
  omega

theorem Fields.ofWord_imm_lt {n : Nat} (w : BitVec (16 + n)) : (Fields.ofWord w.toNat).imm < 2 ^ n := by
  refine Nat.div_lt_of_lt_mul ?_
  rw [← pow_add]
  exact w.isLt

theorem Addr.toNat_lt_two_pow (a : Addr) {n : Nat} (hn : 8 ≤ n) : a.toNat < 2 ^ n :=
  lt_of_lt_of_le a.isLt (Nat.pow_le_pow_right (by decide) hn)

theorem Instr.fields_imm_lt {n : Nat} (hn : 8 ≤ n) (i : Instr) : (i.fields n).imm < 2 ^ n := by
  cases i with
  | load _ v => exact unsigned_lt n v
  | store _ a | jmp a | jz _ a | jnz _ a | printMem a => exact Addr.toNat_lt_two_pow a hn
  | _ => exact Nat.two_pow_pos n

/-- The packed word has the instruction's fields, at every width that has room for an address (R83). -/
theorem Fields.ofWord_encode {n : Nat} (hn : 8 ≤ n) (i : Instr) : Fields.ofWord (encode n i).toNat = i.fields n := by
  have hlt := Fields.word_lt (Instr.fields_bounded n i) (Instr.fields_imm_lt hn i)
  rw [encode, BitVec.toNat_ofNat, Nat.mod_eq_of_lt hlt, Fields.ofWord_word (Instr.fields_bounded n i)]

/-! ### The opcodes (R82) -/

@[simp] theorem Mnemonic.ofOpcode_opcode (k : Mnemonic) : Mnemonic.ofOpcode k.opcode = some k := by cases k <;> rfl

theorem Mnemonic.opcode_lt (k : Mnemonic) : k.opcode < 24 := by cases k <;> decide

theorem Mnemonic.ofOpcode_eq_none {n : Nat} (hn : 24 ≤ n) : Mnemonic.ofOpcode n = none := by
  obtain ⟨m, rfl⟩ := Nat.exists_eq_add_of_le' hn
  rfl

theorem Mnemonic.exists_opcode {n : Nat} (hn : n < 24) : ∃ k : Mnemonic, k.opcode = n := by
  have hall : ∀ m : Fin 24, ∃ k ∈ Mnemonic.all, k.opcode = m := by decide
  obtain ⟨k, -, hk⟩ := hall ⟨n, hn⟩
  exact ⟨k, hk⟩

/-! ### The checks of the decoder (R84) -/

/-- An address field is above 255 (the second check). -/
def Fields.BadAddress (f : Fields) (k : Mnemonic) : Prop := (k.format f.m).usesAddr = true ∧ 255 < f.imm

/-- The reserved field, `m` outside PRINT or a field the format does not use is nonzero (the third check). -/
def Fields.Reserved (f : Fields) (k : Mnemonic) : Prop :=
  f.z ≠ 0 ∨ (f.m = 1 ∧ k ≠ .print) ∨ (k.format f.m).unusedZero f = false

theorem Fields.decode_of_unknown {n : Nat} {f : Fields} (h : 24 ≤ f.op) : f.decode n = .error (.unknownOpcode f.op) := by
  rw [Fields.decode, Mnemonic.ofOpcode_eq_none h]

section
variable {n : Nat} {f : Fields} {k : Mnemonic} (hk : k.opcode = f.op)
include hk

theorem Fields.decode_of_badAddress (hbad : f.BadAddress k) : f.decode n = .error .invalidAddress := by
  rw [Fields.decode, ← hk, Mnemonic.ofOpcode_opcode]
  exact if_pos hbad

theorem Fields.decode_of_reserved (hbad : ¬ f.BadAddress k) (hres : f.Reserved k) :
    f.decode n = .error .reservedEncoding := by
  rw [Fields.decode, ← hk, Mnemonic.ofOpcode_opcode]
  exact (if_neg hbad).trans (if_pos hres)

theorem Fields.decode_of_valid (hbad : ¬ f.BadAddress k) (hres : ¬ f.Reserved k) : f.decode n = .ok (f.instr n k) := by
  rw [Fields.decode, ← hk, Mnemonic.ofOpcode_opcode]
  exact (if_neg hbad).trans (if_neg hres)

end

/-- Fields decode to an instruction exactly when they pass the three checks. -/
theorem Fields.decode_eq_ok {n : Nat} {f : Fields} {i : Instr} :
    f.decode n = .ok i ↔ ∃ k : Mnemonic, k.opcode = f.op ∧ ¬ f.BadAddress k ∧ ¬ f.Reserved k ∧ i = f.instr n k := by
  constructor
  · intro h
    rcases Nat.lt_or_ge f.op 24 with hop | hop
    · obtain ⟨k, hk⟩ := Mnemonic.exists_opcode hop
      by_cases hbad : f.BadAddress k
      · exact nomatch (Fields.decode_of_badAddress hk hbad).symm.trans h
      by_cases hres : f.Reserved k
      · exact nomatch (Fields.decode_of_reserved hk hbad hres).symm.trans h
      exact ⟨k, hk, hbad, hres, (Decoded.ok.inj ((Fields.decode_of_valid hk hbad hres).symm.trans h)).symm⟩
    · exact nomatch (Fields.decode_of_unknown hop).symm.trans h
  · rintro ⟨k, hk, hbad, hres, rfl⟩
    exact Fields.decode_of_valid hk hbad hres

/-! ### Instructions and their fields -/

theorem Fields.instr_print (n : Nat) {f : Fields} (hm : f.m = 0) : f.instr n .print = .print (.ofField f.a) := if_pos hm

theorem Fields.instr_printMem (n : Nat) {f : Fields} (hm : f.m ≠ 0) :
    f.instr n .print = .printMem (BitVec.ofNat 8 f.imm) := if_neg hm

theorem Fields.instr_wellFormed (n : Nat) (f : Fields) (k : Mnemonic) : (f.instr n k).wellFormed n = true := by
  cases k with
  | load => exact decide_eq_true (wrap_inRange n f.imm)
  | print =>
    by_cases hm : f.m = 0
    · rw [Fields.instr_print n hm, Instr.wellFormed]
    · rw [Fields.instr_printMem n hm, Instr.wellFormed]
  | _ => rfl

@[simp] theorem Fields.instr_mnemonic (n : Nat) (f : Fields) (k : Mnemonic) : (f.instr n k).mnemonic = k := by
  cases k with
  | print =>
    by_cases hm : f.m = 0
    · rw [Fields.instr_print n hm, Instr.mnemonic]
    · rw [Fields.instr_printMem n hm, Instr.mnemonic]
  | _ => rfl

/-- An instruction's own fields pass the three checks and are read as it (R85). -/
theorem Fields.decode_fields {n : Nat} {i : Instr} (hn : 0 < n) (hw : i.wellFormed n = true) :
    (i.fields n).decode n = .ok i := by
  have haddr (a : Addr) : ¬ 255 < a.toNat := by have := a.isLt; omega
  refine Fields.decode_eq_ok.2 ⟨i.mnemonic, ?_, ?_, ?_, ?_⟩
  · cases i <;> rfl
  · cases i <;> simp [Fields.BadAddress, Instr.fields, Instr.mnemonic, Mnemonic.format, Format.usesAddr, haddr]
  · cases i <;> simp [Fields.Reserved, Instr.fields, Instr.mnemonic, Mnemonic.format, Format.unusedZero]
  · cases i with
    | load d v => simp [Instr.fields, Instr.mnemonic, Fields.instr, wrap_unsigned hn (of_decide_eq_true hw)]
    | _ => simp [Instr.fields, Instr.mnemonic, Fields.instr]

/-- Settles O1: the packed word has the instruction's fields, which are read as the instruction. -/
theorem encodedInstructionDecodesToItself : Obligations.EncodedInstructionDecodesToItself := by
  intro n i hn hw
  rw [decodeWord, Fields.ofWord_encode hn, Fields.decode_fields (by omega) hw]

/-- Fields that pass the checks are those of the instruction they are read as: what its format does not use is 0. -/
theorem Fields.fields_instr {n : Nat} {f : Fields} {k : Mnemonic} (hf : f.Bounded) (himm : f.imm < 2 ^ n)
    (hk : k.opcode = f.op) (hbad : ¬ f.BadAddress k) (hres : ¬ f.Reserved k) : (f.instr n k).fields n = f := by
  obtain ⟨op, a, b, c, m, z, imm⟩ := f
  obtain ⟨-, ha, hb, hc, hm, -⟩ := hf
  simp only [Fields.BadAddress, Fields.Reserved, not_and, not_or, not_not, Bool.not_eq_false] at *
  obtain ⟨rfl, hprint, hzero⟩ := hres
  subst hk
  obtain rfl | rfl : m = 0 ∨ m = 1 := by omega
  · cases k with
    | store | jz | jnz | jmp =>
      have haddr : imm % 256 = imm := Nat.mod_eq_of_lt (Nat.lt_succ_of_le (not_lt.1 (hbad rfl)))
      simp_all [Fields.instr, Instr.fields, Mnemonic.format, Format.unusedZero, Mnemonic.opcode, Reg.index_ofField,
        Nat.mod_eq_of_lt]
    | _ =>
      simp_all [Fields.instr, Instr.fields, Mnemonic.format, Format.unusedZero, Mnemonic.opcode, Reg.index_ofField,
        Nat.mod_eq_of_lt, unsigned_wrap]
  · obtain rfl := hprint rfl
    have haddr : imm % 256 = imm := Nat.mod_eq_of_lt (Nat.lt_succ_of_le (not_lt.1 (hbad rfl)))
    simp_all [Fields.instr, Instr.fields, Mnemonic.format, Format.unusedZero, Mnemonic.opcode]

/-- What a word decodes to is well-formed and has the word's own fields (R84, R85). -/
theorem decodeWord_eq_ok {n : Nat} {w : BitVec (16 + n)} {i : Instr} (h : decodeWord n w = .ok i) :
    i.wellFormed n = true ∧ i.fields n = Fields.ofWord w.toNat := by
  obtain ⟨k, hk, hbad, hres, rfl⟩ := Fields.decode_eq_ok.1 h
  exact ⟨Fields.instr_wellFormed n _ k,
    Fields.fields_instr (Fields.ofWord_bounded _) (Fields.ofWord_imm_lt w) hk hbad hres⟩

/-- The word of a decoded instruction is the word it was decoded from. -/
theorem encode_of_decodeWord {n : Nat} {w : BitVec (16 + n)} {i : Instr} (h : decodeWord n w = .ok i) : encode n i = w := by
  rw [encode, (decodeWord_eq_ok h).2, Fields.word_ofWord, BitVec.ofNat_toNat, BitVec.setWidth_eq]

/-- Settles O2: the instruction's fields are the word's, and another instruction with that word decodes from it too. -/
theorem validWordIsTheEncodingOfItsInstruction : Obligations.ValidWordIsTheEncodingOfItsInstruction := by
  intro n w i h
  refine ⟨(decodeWord_eq_ok h).1, encode_of_decodeWord h, fun j hj hw hn => ?_⟩
  have hdec := encodedInstructionDecodesToItself n j hn hj
  rw [hw, h] at hdec
  exact (Decoded.ok.inj hdec).symm

/-! ### The bit fields (R81) -/

theorem Fields.ofWord_toNat {n : Nat} (w : BitVec (16 + n)) : Fields.ofWord w.toNat =
    { op := (w.extractLsb' 0 5).toNat, a := (w.extractLsb' 5 2).toNat, b := (w.extractLsb' 7 2).toNat,
      c := (w.extractLsb' 9 2).toNat, m := (w.extractLsb' 11 1).toNat, z := (w.extractLsb' 12 4).toNat,
      imm := (w.extractLsb' 16 n).toNat } := by
  have himm := Nat.mod_eq_of_lt (Fields.ofWord_imm_lt w)
  simp only [Fields.ofWord] at himm
  simpa [Fields.ofWord, slice, Nat.shiftRight_eq_div_pow] using himm.symm

theorem Fields.badAddress_iff {f : Fields} {k : Mnemonic} (hk : k.opcode = f.op) (hm : f.m < 2) :
    f.BadAddress k ↔ (f.op = 1 ∨ f.op = 19 ∨ f.op = 20 ∨ f.op = 21 ∨ (f.op = 22 ∧ f.m = 1)) ∧ 255 < f.imm := by
  rw [Fields.BadAddress, ← hk]
  obtain hm | hm : f.m = 0 ∨ f.m = 1 := by omega
  · cases k <;> simp [Mnemonic.format, Format.usesAddr, Mnemonic.opcode, hm]
  · cases k <;> simp [Mnemonic.format, Format.usesAddr, Mnemonic.opcode, hm]

theorem Fields.reserved_iff {f : Fields} {k : Mnemonic} (hk : k.opcode = f.op) (hm : f.m < 2) :
    f.Reserved k ↔ f.z ≠ 0 ∨ (f.m = 1 ∧ f.op ≠ 22) ∨
      ((f.op = 19 ∨ f.op = 23 ∨ (f.op = 22 ∧ f.m = 1)) ∧ f.a ≠ 0) ∨
      (¬ (((2 ≤ f.op ∧ f.op ≤ 11) ∨ (13 ≤ f.op ∧ f.op ≤ 18)) ∨ f.op = 12) ∧ f.b ≠ 0) ∨
      (¬ ((2 ≤ f.op ∧ f.op ≤ 11) ∨ (13 ≤ f.op ∧ f.op ≤ 18)) ∧ f.c ≠ 0) ∨
      (¬ (f.op = 0 ∨ f.op = 1 ∨ f.op = 19 ∨ f.op = 20 ∨ f.op = 21 ∨ (f.op = 22 ∧ f.m = 1)) ∧ f.imm ≠ 0) := by
  rw [Fields.Reserved, ← hk]
  obtain hm | hm : f.m = 0 ∨ f.m = 1 := by omega
  · cases k <;> simp [Mnemonic.format, Format.unusedZero, Mnemonic.opcode, hm, imp_iff_not_or]
  · cases k <;> simp [Mnemonic.format, Format.unusedZero, Mnemonic.opcode, hm, imp_iff_not_or]

/-- Settles O3: the clauses are the decoder's checks, with an opcode's number in place of its mnemonic. -/
theorem wordDecoderChecksInOrder : Obligations.WordDecoderChecksInOrder := by
  intro n w op a b c m z imm hasAddr threeRegs reserved
  have hm : m < 2 := (w.extractLsb' 11 1).isLt
  have hdec : decodeWord n w = Fields.decode n ⟨op, a, b, c, m, z, imm⟩ := by rw [decodeWord, Fields.ofWord_toNat]
  refine ⟨fun hop => hdec.trans (Fields.decode_of_unknown hop), fun hop haddr himm => ?_, fun hop hbad hres => ?_,
    fun hop hbad hres => ?_⟩ <;> obtain ⟨k, hk⟩ := Mnemonic.exists_opcode hop
  · exact hdec.trans (Fields.decode_of_badAddress hk ((Fields.badAddress_iff hk hm).2 ⟨haddr, himm⟩))
  · exact hdec.trans (Fields.decode_of_reserved hk (mt (Fields.badAddress_iff hk hm).1 hbad)
      ((Fields.reserved_iff hk hm).2 hres))
  · have hok := hdec.trans (Fields.decode_of_valid hk (mt (Fields.badAddress_iff hk hm).1 hbad)
      (mt (Fields.reserved_iff hk hm).1 hres))
    exact ⟨_, hok, by rw [Fields.instr_mnemonic, hk], encode_of_decodeWord hok⟩

/-- Settles O5: each word is decoded by evaluation. -/
theorem specWordsDecode : Obligations.SpecWordsDecode := by
  refine ⟨?_, ?_, ?_, ?_, ?_, ?_, ?_, ?_, ?_, ?_, ?_⟩ <;> decide

/-! ### Match and mask (R86) -/

/-- The fields of a format's mask: all ones in every field the format fixes. -/
def Format.maskFields (n : Nat) : Format → Fields
  | .ri => ⟨31, 0, 3, 3, 1, 15, 0⟩
  | .ra => ⟨31, 0, 3, 3, 1, 15, 2 ^ n - 256⟩
  | .rrr => ⟨31, 0, 0, 0, 1, 15, 2 ^ n - 1⟩
  | .rr => ⟨31, 0, 0, 3, 1, 15, 2 ^ n - 1⟩
  | .a => ⟨31, 3, 3, 3, 1, 15, 2 ^ n - 256⟩
  | .pr => ⟨31, 0, 3, 3, 1, 15, 2 ^ n - 1⟩
  | .pm => ⟨31, 3, 3, 3, 1, 15, 2 ^ n - 256⟩
  | .n => ⟨31, 3, 3, 3, 1, 15, 2 ^ n - 1⟩

theorem Format.word_maskFields (n : Nat) (x : Format) : (x.maskFields n).word = x.mask n := by
  cases x with
  | ri =>
    have hmask : Format.mask n .ri = 0xFF9F := rfl
    rw [hmask]
    norm_num [Fields.word, Format.maskFields]
  | _ =>
    change Fields.word _ = _ + 65536 * _
    norm_num [Fields.word, Format.maskFields]

theorem Format.maskFields_bounded (n : Nat) (x : Format) : (x.maskFields n).Bounded := by
  cases x <;> constructor <;> simp [Format.maskFields]

theorem Format.maskFields_imm_lt (n : Nat) (x : Format) : (x.maskFields n).imm < 2 ^ n := by
  have h : 0 < 2 ^ n := Nat.two_pow_pos n
  cases x <;> simp only [Format.maskFields] <;> omega

/-- The bitwise AND, field by field. -/
def Fields.and (f g : Fields) : Fields :=
  ⟨f.op &&& g.op, f.a &&& g.a, f.b &&& g.b, f.c &&& g.c, f.m &&& g.m, f.z &&& g.z, f.imm &&& g.imm⟩

theorem slice_and (v w lo n : Nat) : slice (v &&& w) lo n = slice v lo n &&& slice w lo n := by
  rw [slice, Nat.and_div_two_pow, Nat.and_mod_two_pow, slice, slice]

/-- The fields of the AND of two words are the ANDs of their fields. -/
theorem Fields.ofWord_and (v w : Nat) : Fields.ofWord (v &&& w) = (Fields.ofWord v).and (Fields.ofWord w) := by
  simp only [Fields.ofWord, Fields.and, slice_and, Nat.and_div_two_pow]

theorem Fields.ofWord_inj {v w : Nat} : Fields.ofWord v = Fields.ofWord w ↔ v = w :=
  ⟨fun h => by rw [← Fields.word_ofWord v, h, Fields.word_ofWord], congrArg _⟩

/-- The fields of a row's match value: its opcode and its `m`. -/
def rowFields (k : Mnemonic) (m : Nat) : Fields := ⟨k.opcode, 0, 0, 0, m, 0, 0⟩

theorem rowFields_bounded (k : Mnemonic) {m : Nat} (hm : m < 2) : (rowFields k m).Bounded :=
  ⟨lt_trans k.opcode_lt (by decide), four_pos, four_pos, four_pos, hm, Nat.succ_pos 15⟩

/-- The test of a row is one of the word's fields. -/
theorem matchesRow_iff {n : Nat} (w : BitVec (16 + n)) (k : Mnemonic) {m : Nat} (hm : m < 2) :
    matchesRow n w k m = true ↔ (Fields.ofWord w.toNat).and ((k.format m).maskFields n) = rowFields k m := by
  have hmask := Fields.word_lt (Format.maskFields_bounded n (k.format m)) (Format.maskFields_imm_lt n (k.format m))
  have hrow := Fields.word_lt (n := n) (rowFields_bounded k hm) (Nat.two_pow_pos n)
  have hval : k.opcode + 2048 * m = (rowFields k m).word := by simp [rowFields, Fields.word]
  rw [matchesRow, decide_eq_true_iff, ← BitVec.toNat_inj, BitVec.toNat_and, BitVec.toNat_ofNat, BitVec.toNat_ofNat,
    ← Format.word_maskFields, hval, Nat.mod_eq_of_lt hmask, Nat.mod_eq_of_lt hrow, ← Fields.ofWord_inj, Fields.ofWord_and,
    Fields.ofWord_word (Format.maskFields_bounded n _), Fields.ofWord_word (rowFields_bounded k hm)]

/-- ANDed with the ones from bit 8 up, a number below `2^n` gives 0 exactly when it is at most 255. -/
theorem and_two_pow_sub_256_eq_zero_iff {n x : Nat} (hn : 8 ≤ n) (hx : x < 2 ^ n) : x &&& (2 ^ n - 256) = 0 ↔ x ≤ 255 := by
  obtain ⟨k, rfl⟩ := Nat.exists_eq_add_of_le hn
  have hmask : 2 ^ (8 + k) - 256 = (2 ^ k - 1) <<< 8 := by
    rw [Nat.shiftLeft_eq, Nat.sub_mul, pow_add, mul_comm]
  have hhigh : (x &&& (2 ^ (8 + k) - 256)) / 2 ^ 8 = x / 2 ^ 8 := by
    rw [Nat.and_div_two_pow, hmask, Nat.shiftLeft_eq, Nat.mul_div_cancel _ (by decide), Nat.and_two_pow_sub_one_eq_mod,
      Nat.mod_eq_of_lt (Nat.div_lt_of_lt_mul (pow_add 2 8 k ▸ hx))]
  have hlow : (x &&& (2 ^ (8 + k) - 256)) % 2 ^ 8 = 0 := by
    rw [Nat.and_mod_two_pow, hmask, Nat.shiftLeft_eq, Nat.mul_mod_left, Nat.and_zero]
  omega

/-- Masked by a format, fields are those of a row exactly when the fields the format fixes are the row's (R83, R86). -/
theorem Fields.and_maskFields_iff {n : Nat} (hn : 8 ≤ n) {f : Fields} (hf : f.Bounded) (himm : f.imm < 2 ^ n) (x : Format)
    (op m : Nat) : f.and (x.maskFields n) = ⟨op, 0, 0, 0, m, 0, 0⟩ ↔
      f.op = op ∧ f.m = m ∧ f.z = 0 ∧ x.unusedZero f = true ∧ (x.usesAddr = true → f.imm ≤ 255) := by
  obtain ⟨hop, ha, hb, hc, hm, hz⟩ := hf
  have ones {v : Nat} (w : Nat) (hv : v < 2 ^ w) : v &&& (2 ^ w - 1) = v := Nat.and_two_pow_sub_one_of_lt_two_pow hv
  have hop' := ones 5 hop
  have ha' := ones 2 ha
  have hb' := ones 2 hb
  have hc' := ones 2 hc
  have hm' := ones 1 hm
  have hz' := ones 4 hz
  simp only [Nat.reducePow, Nat.reduceSub] at hop' ha' hb' hc' hm' hz'
  cases x <;>
    simp [Fields.and, Format.maskFields, Format.unusedZero, Format.usesAddr, hop', ha', hb', hc', hm', hz', ones n himm,
      and_two_pow_sub_256_eq_zero_iff hn himm] <;>
    tauto

theorem Fields.instr_form {n : Nat} {f : Fields} {k : Mnemonic} (hm : f.m < 2) (hprint : f.m = 1 → k = .print) :
    (f.instr n k).form = f.m := by
  obtain h0 | h1 : f.m = 0 ∨ f.m = 1 := by omega
  · cases k <;> simp [Fields.instr, Instr.form, h0]
  · rw [hprint h1, Fields.instr_printMem n (by omega), Instr.form, h1]

/-- Settles O4: both sides say the same of the word's fields, that they are the row's and pass the decoder's checks. -/
theorem maskAndMatchSelectTheRow : Obligations.MaskAndMatchSelectTheRow := by
  intro n w k m hn hmk
  have hf := Fields.ofWord_bounded w.toNat
  have himm := Fields.ofWord_imm_lt w
  rw [matchesRow_iff w k (by omega), rowFields, Fields.and_maskFields_iff hn hf himm, decodeWord]
  generalize Fields.ofWord w.toNat = f at hf himm
  constructor
  · rintro ⟨hop, rfl, hz, hzero, haddr⟩
    have hprint : f.m = 1 → k = .print := fun h1 => by simpa [h1] using hmk
    refine ⟨f.instr n k, Fields.decode_of_valid hop.symm (fun hbad => ?_) ?_, Fields.instr_mnemonic n f k,
      Fields.instr_form hf.m hprint⟩
    · exact absurd (haddr hbad.1) (not_le.2 hbad.2)
    · simpa [Fields.Reserved, hz, hzero] using hprint
  · rintro ⟨i, hi, hmnem, hform⟩
    obtain ⟨j, hj, hbad, hres, rfl⟩ := Fields.decode_eq_ok.1 hi
    simp only [Fields.BadAddress, Fields.Reserved, not_and, not_or, not_not, Bool.not_eq_false] at hbad hres
    obtain ⟨hz, hprint, hzero⟩ := hres
    obtain rfl : j = k := (Fields.instr_mnemonic n f j).symm.trans hmnem
    obtain rfl : f.m = m := (Fields.instr_form hf.m hprint).symm.trans hform
    exact ⟨hj.symm, rfl, hz, hzero, fun ha => not_lt.1 (hbad ha)⟩

end Sys2Proof
end

section
/-! Lines and tokens (spec 30_encoding.md R60, R61): the tokens are the one way to split a line at its white space, and what
follows the first `;` plays no part. -/

namespace Sys2Proof

open Machine

/-! ### Splitting at white space (R61) -/

/-- The run being read goes on through characters that are no white space. -/
theorem tokensFrom_append_of_token {tok : List Char} (ht : ∀ c ∈ tok, isSpace c = false) (rest cur : List Char) :
    tokensFrom (tok ++ rest) cur = tokensFrom rest (tok.reverse ++ cur) := by
  induction tok generalizing cur with
  | nil => rfl
  | cons c tok ih =>
    obtain ⟨hc, ht⟩ := List.forall_mem_cons.1 ht
    simp [tokensFrom, hc, ih ht]

/-- White space between tokens yields nothing. -/
theorem tokensFrom_append_of_gap {gap : List Char} (hg : ∀ c ∈ gap, isSpace c = true) (rest : List Char) :
    tokensFrom (gap ++ rest) [] = tokensFrom rest [] := by
  induction gap with
  | nil => rfl
  | cons c gap ih =>
    obtain ⟨hc, hg⟩ := List.forall_mem_cons.1 hg
    simp [tokensFrom, hc, ih hg]

/-- A run ends at white space or at the end of the text, and is a token. -/
theorem tokensFrom_of_boundary {rest cur : List Char} (hcur : cur ≠ []) (hr : ∀ c, rest.head? = some c → isSpace c = true) :
    tokensFrom rest cur = cur.reverse :: tokensFrom rest [] := by
  obtain ⟨d, ds, rfl⟩ := List.exists_cons_of_ne_nil hcur
  cases rest with
  | nil => rfl
  | cons c rest => simp [tokensFrom, hr c rfl]

theorem tokensFrom_of_splits {text : List Char} {toks : List (List Char)} (h : Splits text toks) :
    tokensFrom text [] = toks := by
  induction h with
  | done gap hg => simpa [tokensFrom] using tokensFrom_append_of_gap hg []
  | token gap tok rest toks hg hne ht hr _ ih =>
    rw [List.append_assoc, tokensFrom_append_of_gap hg, tokensFrom_append_of_token ht, List.append_nil,
      tokensFrom_of_boundary (List.reverse_ne_nil_iff.2 hne) hr, List.reverse_reverse, ih]

theorem Machine.Splits.cons_of_space {c : Char} {text : List Char} {toks : List (List Char)} (hc : isSpace c = true)
    (h : Splits text toks) : Splits (c :: text) toks := by
  cases h with
  | done gap hg => exact .done _ (List.forall_mem_cons.2 ⟨hc, hg⟩)
  | token gap tok rest toks hg hne ht hr h => exact .token (c :: gap) tok rest toks (List.forall_mem_cons.2 ⟨hc, hg⟩) hne ht hr h

/-- A character in front of a split text makes its first token longer, or is a token of its own before white space. -/
theorem Machine.Splits.cons_of_not_space {c : Char} {text : List Char} {toks : List (List Char)} (hc : isSpace c = false)
    (h : Splits text toks) : ∃ toks', Splits (c :: text) toks' := by
  have hnil : ∀ d ∈ ([] : List Char), isSpace d = true := by simp
  have hsingle : ∀ d ∈ [c], isSpace d = false := by simpa using hc
  cases h with
  | done _ hg =>
    have hr : ∀ d, text.head? = some d → isSpace d = true := fun d hd => hg d (List.mem_of_head? hd)
    exact ⟨_, .token [] [c] text [] hnil (by simp) hsingle hr (.done text hg)⟩
  | token gap tok rest toks hg hne ht hr h =>
    cases gap with
    | nil => exact ⟨_, .token [] (c :: tok) rest toks hnil (by simp) (List.forall_mem_cons.2 ⟨hc, ht⟩) hr h⟩
    | cons g gap =>
      have hgap : ∀ d, (g :: gap ++ tok ++ rest).head? = some d → isSpace d = true := by simpa using hg g (by simp)
      exact ⟨_, .token [] [c] _ _ hnil (by simp) hsingle hgap (.token _ tok rest toks hg hne ht hr h)⟩

theorem exists_splits (text : List Char) : ∃ toks, Splits text toks := by
  induction text with
  | nil => exact ⟨_, .done [] (by simp)⟩
  | cons c text ih =>
    obtain ⟨toks, h⟩ := ih
    cases hc : isSpace c with
    | true => exact ⟨_, h.cons_of_space hc⟩
    | false => exact h.cons_of_not_space hc

theorem splits_iff_tokensFrom {text : List Char} {toks : List (List Char)} :
    Splits text toks ↔ tokensFrom text [] = toks := by
  refine ⟨tokensFrom_of_splits, ?_⟩
  rintro rfl
  obtain ⟨toks, h⟩ := exists_splits text
  rwa [tokensFrom_of_splits h]

theorem splits_nil_iff {text : List Char} : Splits text [] ↔ ∀ c ∈ text, isSpace c = true := by
  refine ⟨fun h => ?_, .done text⟩
  cases h with
  | done _ hg => exact hg

theorem isSpace_iff (c : Char) :
    isSpace c = true ↔ c ∈ [' ', '\t', '\n', Char.ofNat 0x0B, Char.ofNat 0x0C, '\r'] := by
  simp [isSpace, ← Char.toNat_inj, or_assoc]

/-- Settles O8: a text has one split, and the tokens are it. -/
theorem tokensAreMaximalRuns : Obligations.TokensAreMaximalRuns :=
  ⟨fun _ _ => splits_iff_tokensFrom, isSpace_iff⟩

/-! ### Comments and blank lines (R60) -/

theorem tokens_eq_nil_iff (line : List Char) :
    tokens line = [] ↔ ∀ c ∈ line.takeWhile (fun c => c != ';'), isSpace c = true := by
  rw [tokens, ← splits_iff_tokensFrom, splits_nil_iff, stripComment]

/-- No operand of a recognised mnemonic gives `EmptyInstruction`, so only a line without tokens does. -/
theorem parse_eq_emptyInstruction_iff (xlen : Nat) (line : List Char) :
    parse xlen line = .error .emptyInstruction ↔ tokens line = [] := by
  cases hline : tokens line with
  | nil => simp [parse, hline]
  | cons t ops =>
    refine iff_of_false (fun h => ?_) (List.cons_ne_nil t ops)
    cases ht : Mnemonic.ofText t with
    | none => exact nomatch (parse_of_unknown hline ht).symm.trans h
    | some k =>
      have hmem : .emptyInstruction ∈ operandErrors k :=
        parseOperands_errorsIn k ops xlen _ ((parse_of_known hline ht).symm.trans h)
      simp [operandErrors] at hmem

theorem stripComment_append (line rest : List Char) : stripComment (line ++ ';' :: rest) = stripComment line := by
  induction line with
  | nil => rfl
  | cons c line ih =>
    simp only [stripComment] at ih
    simp only [stripComment, List.cons_append, List.takeWhile_cons, ih]

/-- Settles O9: decoding reads the tokens only, which a comment does not change and a blank line has none of. -/
theorem commentsAndBlankLines : Obligations.CommentsAndBlankLines := fun xlen line rest =>
  ⟨by simp only [parse, tokens, stripComment_append],
    (parse_eq_emptyInstruction_iff xlen line).trans (tokens_eq_nil_iff line)⟩

end Sys2Proof
end

section
/-! Numbers in a line (spec 30_encoding.md R70, R71): what digits spell in a base, read digit by digit and, from the value, written
digit by digit; the address token and LOAD's literal token. -/

namespace Sys2Proof

open Machine

/-! ### Digits -/

theorem decDigit_decChar {v : Nat} (hv : v < 10) : decDigit (decChar v) = some v := by
  have hall : ∀ v : Fin 10, decDigit (decChar v) = some v.val := by decide
  exact hall ⟨v, hv⟩

theorem decDigit_lt {c : Char} {v : Nat} (h : decDigit c = some v) : v < 10 := by
  unfold decDigit at h
  split at h
  · simp only [Option.some.injEq] at h
    omega
  · exact nomatch h

theorem decDigitIs_iff {c : Char} {v : Nat} : DecDigitIs c v ↔ decDigit c = some v := by
  have hall : ∀ v : Fin 10, DecDigitIs (decChar v) v := by simp only [DecDigitIs]; decide
  constructor
  · intro h
    obtain ⟨hv, -⟩ := List.getElem?_eq_some_iff.1 h
    have hc : c = decChar v := Option.some.inj (h.symm.trans (hall ⟨v, hv⟩))
    rw [hc, decDigit_decChar hv]
  · intro h
    rw [← decChar_of_decDigit h]
    exact hall ⟨v, decDigit_lt h⟩

/-- A lower-case hexadecimal digit character, as `hexChar` for upper case. -/
def lowerHexChar (d : Nat) : Char := if d < 10 then Char.ofNat (0x30 + d) else Char.ofNat (0x61 + (d - 10))

theorem hexDigit_hexChar {v : Nat} (hv : v < 16) : hexDigit (hexChar v) = some v ∧ hexDigit (lowerHexChar v) = some v := by
  have hall : ∀ v : Fin 16, hexDigit (hexChar v) = some v.val ∧ hexDigit (lowerHexChar v) = some v.val := by decide
  exact hall ⟨v, hv⟩

/-- A character read as a hexadecimal digit is that digit's character in one of the two cases. -/
theorem hexChar_of_hexDigit {c : Char} {v : Nat} (h : hexDigit c = some v) :
    v < 16 ∧ (c = hexChar v ∨ c = lowerHexChar v) := by
  have hchar {n : Nat} (hn : c.toNat = n) : c = Char.ofNat n := by rw [← hn, Char.ofNat_toNat]
  unfold hexDigit at h
  split_ifs at h with hdec hupper hlower
  · obtain rfl := Option.some.inj h
    exact ⟨by omega, .inl (by rw [hexChar, if_pos (by omega)]; exact hchar (by omega))⟩
  · obtain rfl := Option.some.inj h
    exact ⟨by omega, .inl (by rw [hexChar, if_neg (by omega)]; exact hchar (by omega))⟩
  · obtain rfl := Option.some.inj h
    exact ⟨by omega, .inr (by rw [lowerHexChar, if_neg (by omega)]; exact hchar (by omega))⟩

theorem hexDigitIs_iff {c : Char} {v : Nat} : HexDigitIs c v ↔ hexDigit c = some v := by
  have hall : ∀ v : Fin 16,
      ['0', '1', '2', '3', '4', '5', '6', '7', '8', '9', 'A', 'B', 'C', 'D', 'E', 'F'][v.val]? = some (hexChar v) ∧
      ['0', '1', '2', '3', '4', '5', '6', '7', '8', '9', 'a', 'b', 'c', 'd', 'e', 'f'][v.val]? = some (lowerHexChar v) := by
    decide
  constructor
  · rintro (h | h) <;> obtain ⟨hv, -⟩ := List.getElem?_eq_some_iff.1 h
    · rw [Option.some.inj (h.symm.trans (hall ⟨v, hv⟩).1), (hexDigit_hexChar hv).1]
    · rw [Option.some.inj (h.symm.trans (hall ⟨v, hv⟩).2), (hexDigit_hexChar hv).2]
  · intro h
    obtain ⟨hv, rfl | rfl⟩ := hexChar_of_hexDigit h
    · exact .inl (hall ⟨v, hv⟩).1
    · exact .inr (hall ⟨v, hv⟩).2

/-- Digits are read one after another: the number before them moves to the front of the one they spell. -/
theorem digitsFrom_eq_some_iff {base : Nat} {digit : Char → Option Nat} {acc n : Nat} {cs : List Char} :
    digitsFrom base digit acc cs = some n ↔ ∃ vs : List Nat, List.Forall₂ (fun c v => digit c = some v) cs vs ∧
      acc * base ^ vs.length + Nat.ofDigits base vs.reverse = n := by
  induction cs generalizing acc with
  | nil => simp [digitsFrom]
  | cons c cs ih =>
    have hnum (v : Nat) (vs : List Nat) : acc * base ^ (v :: vs).length + Nat.ofDigits base (v :: vs).reverse =
        (acc * base + v) * base ^ vs.length + Nat.ofDigits base vs.reverse := by
      rw [List.reverse_cons, Nat.ofDigits_append, Nat.ofDigits_singleton, List.length_reverse, List.length_cons]
      ring
    cases hd : digit c with
    | none => simp [digitsFrom, hd, List.forall₂_cons_left_iff]
    | some d =>
      simp only [digitsFrom, hd, ih, List.forall₂_cons_left_iff]
      constructor
      · rintro ⟨vs, hvs, rfl⟩
        exact ⟨d :: vs, ⟨d, vs, rfl, hvs, rfl⟩, hnum d vs⟩
      · rintro ⟨-, ⟨v, vs, hv, hvs, rfl⟩, rfl⟩
        obtain rfl := Option.some.inj hv
        exact ⟨vs, hvs, (hnum d vs).symm⟩

theorem digitsValue_eq_some_iff {base : Nat} {digit : Char → Option Nat} {digitIs : Char → Nat → Prop}
    (hdigit : ∀ c v, digitIs c v ↔ digit c = some v) {cs : List Char} {n : Nat} :
    digitsValue base digit cs = some n ↔ Spells base digitIs cs n := by
  have hrel : digitIs = fun c v => digit c = some v := funext₂ fun c v => propext (hdigit c v)
  cases cs with
  | nil => simp [digitsValue, Spells]
  | cons c cs => simp [digitsValue, Spells, digitsFrom_eq_some_iff, hrel]

theorem hexValue_eq_some_iff {cs : List Char} {n : Nat} : digitsValue 16 hexDigit cs = some n ↔ Spells 16 HexDigitIs cs n :=
  digitsValue_eq_some_iff (digitIs := HexDigitIs) fun _ _ => hexDigitIs_iff

theorem decValue_eq_some_iff {cs : List Char} {n : Nat} : digitsValue 10 decDigit cs = some n ↔ Spells 10 DecDigitIs cs n :=
  digitsValue_eq_some_iff (digitIs := DecDigitIs) fun _ _ => decDigitIs_iff

/-! ### The address token (R70) -/

theorem addressToken_eq_ok_iff {tok : List Char} {a : Addr} : addressToken tok = .ok a ↔
    ∃ x cs, tok = '0' :: x :: cs ∧ (x = 'x' ∨ x = 'X') ∧ Spells 16 HexDigitIs cs a.toNat := by
  simp only [← hexValue_eq_some_iff]
  constructor
  · fun_cases addressToken tok
    case case1 z x cs hzx n hn hle =>
      intro h
      obtain rfl := Decoded.ok.inj h
      refine ⟨x, cs, by rw [hzx.1], hzx.2, ?_⟩
      rw [hn, BitVec.toNat_ofNat, Nat.mod_eq_of_lt (by omega)]
    all_goals exact fun h => nomatch h
  · rintro ⟨x, cs, rfl, hx, hcs⟩
    have ha : a.toNat ≤ 255 := Nat.lt_succ_iff.1 a.isLt
    simp [addressToken, hx, hcs, ha]

theorem addressToken_cases (tok : List Char) : (∃ a, addressToken tok = .ok a) ∨ addressToken tok = .error .invalidAddress := by
  fun_cases addressToken tok
  case case1 => exact .inl ⟨_, rfl⟩
  all_goals exact .inr rfl

/-- Settles O14: the digits of an address token are read as the number they spell, and any other token is one error. -/
theorem addressTokensAreHexBytes : Obligations.AddressTokensAreHexBytes := by
  refine fun tok => ⟨fun a => addressToken_eq_ok_iff, fun herr a hok => ?_, fun hne => ?_⟩
  · exact nomatch herr.symm.trans hok
  · exact (addressToken_cases tok).resolve_left fun ⟨a, ha⟩ => hne a ha

/-! ### LOAD's literal token (R71) -/

theorem ne_minus_of_spells {c : Char} {cs : List Char} {n : Nat} (h : Spells 10 DecDigitIs (c :: cs) n) : c ≠ '-' := by
  obtain ⟨-, vs, hvs, -⟩ := h
  obtain ⟨v, -, hv, -, -⟩ := List.forall₂_cons_left_iff.1 hvs
  rw [decDigitIs_iff] at hv
  rintro rfl
  exact nomatch hv

theorem decimalValue_eq_some_iff {tok : List Char} {v : Int} : decimalValue tok = some v ↔
    (∃ n : Nat, Spells 10 DecDigitIs tok n ∧ v = n) ∨
      ∃ cs, ∃ n : Nat, tok = '-' :: cs ∧ Spells 10 DecDigitIs cs n ∧ v = -(n : Int) := by
  cases tok with
  | nil => simp [decimalValue, Spells]
  | cons c cs =>
    by_cases hc : c = '-'
    · have hno (n : Nat) : ¬ Spells 10 DecDigitIs (c :: cs) n := fun h => ne_minus_of_spells h hc
      subst hc
      simp [decimalValue, Option.bind_eq_some_iff, decValue_eq_some_iff, hno, @eq_comm _ v]
    · simp [decimalValue, Option.bind_eq_some_iff, decValue_eq_some_iff, hc, @eq_comm _ v]

theorem valueToken_eq_unsettled_iff {xlen : Nat} {tok : List Char} :
    valueToken xlen tok = .unsettled ↔ tok.head? = some '+' := by
  fun_cases valueToken xlen tok <;> simp_all

theorem valueToken_cases (xlen : Nat) (tok : List Char) :
    (∃ v, valueToken xlen tok = .ok v) ∨ valueToken xlen tok = .error .invalidValue ∨ valueToken xlen tok = .unsettled := by
  fun_cases valueToken xlen tok <;> simp

theorem decimalValue_plus (cs : List Char) : decimalValue ('+' :: cs) = none := rfl

theorem valueToken_eq_ok_iff {xlen : Nat} {tok : List Char} {v : Int} : valueToken xlen tok = .ok v ↔
    InRange xlen v ∧ decimalValue tok = some v := by
  fun_cases valueToken xlen tok
  case case1 hplus =>
    obtain ⟨cs, rfl⟩ := List.head?_eq_some_iff.1 hplus
    simp [decimalValue_plus]
  case case2 w hw hrange =>
    rw [Decoded.ok.injEq, hw, Option.some.injEq]
    exact ⟨fun h => ⟨h ▸ hrange, h⟩, And.right⟩
  case case3 w hw hrange =>
    refine iff_of_false nofun ?_
    rintro ⟨hv, h⟩
    exact hrange (Option.some.inj (hw.symm.trans h) ▸ hv)
  case case4 hw => simp [hw]

/-- Settles O15: a token is read in one of three ways, and as a value exactly when it spells one in range. -/
theorem valueTokensAreSignedDecimals : Obligations.ValueTokensAreSignedDecimals := by
  refine fun xlen tok => ⟨fun v => ?_, valueToken_eq_unsettled_iff, fun herr => ⟨fun hplus => ?_, fun v hok => ?_⟩, ?_⟩
  · rw [valueToken_eq_ok_iff, decimalValue_eq_some_iff]
  · exact nomatch herr.symm.trans (valueToken_eq_unsettled_iff.2 hplus)
  · exact nomatch herr.symm.trans hok
  · rintro ⟨hplus, hne⟩
    obtain ⟨v, hv⟩ | herr | hopen := valueToken_cases xlen tok
    · exact absurd hv (hne v)
    · exact herr
    · exact absurd (valueToken_eq_unsettled_iff.1 hopen) hplus

end Sys2Proof
end

section
/-! What a line decodes to (spec 30_encoding.md R64, R79, R85): the token counts, the well-formed instructions a line delivers, and
the canonical text, which reads back. -/

namespace Sys2Proof

open Machine

/-! ### Token counts (R64) -/

theorem parseRRR_of_length (k : Mnemonic) (mk : Reg → Reg → Reg → Instr) {ops : List (List Char)} (h : ops.length ≠ 3) :
    parseRRR k mk ops = .error (.arityError k) := by
  fun_cases parseRRR k mk ops
  · exact absurd rfl h
  · rfl

theorem parseRA_of_length (k : Mnemonic) (mk : Reg → Addr → Instr) {ops : List (List Char)} (h : ops.length ≠ 2) :
    parseRA k mk ops = .error (.arityError k) := by
  fun_cases parseRA k mk ops
  · exact absurd rfl h
  · rfl

theorem parseLoad_of_length (xlen : Nat) {ops : List (List Char)} (h : ops.length ≠ 2) :
    parseLoad xlen ops = .error (.arityError .load) := by
  fun_cases parseLoad xlen ops
  · exact absurd rfl h
  · rfl

theorem parseNot_of_length {ops : List (List Char)} (h : ops.length ≠ 2) : parseNot ops = .error (.arityError .not) := by
  fun_cases parseNot ops
  · exact absurd rfl h
  · rfl

theorem parseJmp_of_length {ops : List (List Char)} (h : ops.length ≠ 1) : parseJmp ops = .error (.arityError .jmp) := by
  fun_cases parseJmp ops
  · exact absurd rfl h
  · rfl

theorem parseHalt_of_length {ops : List (List Char)} (h : ops.length ≠ 0) : parseHalt ops = .error (.arityError .halt) := by
  fun_cases parseHalt ops
  · exact absurd rfl h
  · rfl

/-- A token count that is not the mnemonic's is an error before any operand is read. -/
theorem parseOperands_of_count {k : Mnemonic} {ops : List (List Char)} (xlen : Nat) (h : ops.length + 1 ∉ tokenCounts k) :
    parseOperands xlen k ops = .error (.arityError k) := by
  cases k <;> simp only [tokenCounts, List.mem_cons, List.not_mem_nil, or_false] at h
  case load => exact parseLoad_of_length xlen (by omega)
  case store | jz | jnz => exact parseRA_of_length _ _ (by omega)
  case not => exact parseNot_of_length (by omega)
  case jmp => exact parseJmp_of_length (by omega)
  case print => exact parsePrint_of_length (by omega)
  case halt => exact parseHalt_of_length (by omega)
  all_goals exact parseRRR_of_length _ _ (by omega)

/-- An error that any mnemonic's operands could give is no `ArityError`, which names its mnemonic. -/
theorem ne_arityError_of_errorsIn {α : Type} {x : Decoded α} (h : ∀ k, x.ErrorsIn (operandErrors k)) (j : Mnemonic) :
    x ≠ .error (.arityError j) := by
  intro hx
  have hload := h .load _ hx
  have hstore := h .store _ hx
  simp [operandErrors] at hload hstore
  exact nomatch hload.symm.trans hstore

open Decoded in
/-- With the right token count, PRINT apart, only the operand tokens can give an error. -/
theorem parseOperands_ne_arityError {k : Mnemonic} {ops : List (List Char)} (xlen : Nat)
    (h : ops.length + 1 ∈ tokenCounts k) (hk : k ≠ .print) (j : Mnemonic) :
    parseOperands xlen k ops ≠ .error (.arityError j) := by
  refine ne_arityError_of_errorsIn (fun i => ?_) j
  cases k <;> simp only [tokenCounts, List.mem_cons, List.not_mem_nil, or_false, Nat.reduceEqDiff] at h
  case print => exact absurd rfl hk
  case load =>
    obtain ⟨t1, t2, rfl⟩ := List.length_eq_two.1 h
    exact (registerToken_errorsIn i t1).bind fun _ => (valueToken_errorsIn i xlen t2).bind fun _ => errorsIn_ok _
  case store | jz | jnz =>
    obtain ⟨t1, t2, rfl⟩ := List.length_eq_two.1 h
    exact (registerToken_errorsIn i t1).bind fun _ => (addressToken_errorsIn i t2).bind fun _ => errorsIn_ok _
  case not =>
    obtain ⟨t1, t2, rfl⟩ := List.length_eq_two.1 h
    exact (registerToken_errorsIn i t1).bind fun _ => (registerToken_errorsIn i t2).bind fun _ => errorsIn_ok _
  case jmp =>
    obtain ⟨t1, rfl⟩ := List.length_eq_one_iff.1 h
    exact (addressToken_errorsIn i t1).bind fun _ => errorsIn_ok _
  case halt =>
    obtain rfl := List.length_eq_zero_iff.1 h
    exact errorsIn_ok _
  all_goals
    obtain ⟨t1, t2, t3, rfl⟩ := List.length_eq_three.1 h
    exact (registerToken_errorsIn i t1).bind fun _ => (registerToken_errorsIn i t2).bind fun _ =>
      (registerToken_errorsIn i t3).bind fun _ => errorsIn_ok _

/-- Settles O11: the count is checked before the operand tokens, which give no `ArityError` themselves. -/
theorem arityErrorsTakePrecedence : Obligations.ArityErrorsTakePrecedence := by
  intro xlen line k ops hline
  rw [parse_of_known hline (Mnemonic.ofText_text k)]
  exact ⟨parseOperands_of_count xlen, parseOperands_ne_arityError xlen⟩

/-! ### Delivered instructions are well-formed (R79) -/

/-- The answer, if an instruction, is well-formed. -/
def Decoded.Delivers (xlen : Nat) (x : Decoded Instr) : Prop := ∀ i, x = .ok i → i.wellFormed xlen = true

section
variable {xlen : Nat}

theorem Decoded.delivers_ok {i : Instr} (hi : i.wellFormed xlen = true) : (Decoded.ok i).Delivers xlen :=
  fun _ h => Decoded.ok.inj h ▸ hi

theorem Decoded.delivers_error (e : DecodeError) : (Decoded.error e).Delivers xlen := fun _ h => nomatch h

theorem Decoded.delivers_bind {α : Type} {x : Decoded α} {f : α → Decoded Instr} (hf : ∀ a, x = .ok a → (f a).Delivers xlen) :
    (x.bind f).Delivers xlen := by
  cases x with
  | ok a => exact hf a rfl
  | error e => exact delivers_error e
  | unsettled => exact fun _ h => nomatch h

variable (k : Mnemonic) (ops : List (List Char))

open Decoded

theorem parseRRR_delivers {mk : Reg → Reg → Reg → Instr} (hmk : ∀ d s1 s2, (mk d s1 s2).wellFormed xlen = true) :
    (parseRRR k mk ops).Delivers xlen := by
  fun_cases parseRRR k mk ops
  · exact delivers_bind fun d _ => delivers_bind fun s1 _ => delivers_bind fun s2 _ => delivers_ok (hmk d s1 s2)
  · exact delivers_error _

theorem parseRA_delivers {mk : Reg → Addr → Instr} (hmk : ∀ s a, (mk s a).wellFormed xlen = true) :
    (parseRA k mk ops).Delivers xlen := by
  fun_cases parseRA k mk ops
  · exact delivers_bind fun s _ => delivers_bind fun a _ => delivers_ok (hmk s a)
  · exact delivers_error _

/-- The one check that a typed instruction needs is made by the literal's token. -/
theorem parseLoad_delivers : (parseLoad xlen ops).Delivers xlen := by
  fun_cases parseLoad xlen ops
  · exact delivers_bind fun d _ => delivers_bind fun v hv => delivers_ok (decide_eq_true (valueToken_eq_ok_iff.1 hv).1)
  · exact delivers_error _

theorem parseNot_delivers : (parseNot ops).Delivers xlen := by
  fun_cases parseNot ops
  · exact delivers_bind fun _ _ => delivers_bind fun _ _ => delivers_ok rfl
  · exact delivers_error _

theorem parseJmp_delivers : (parseJmp ops).Delivers xlen := by
  fun_cases parseJmp ops
  · exact delivers_bind fun _ _ => delivers_ok rfl
  · exact delivers_error _

theorem parsePrint_delivers : (parsePrint ops).Delivers xlen := by
  fun_cases parsePrint ops
  case case3 => exact delivers_bind fun _ _ => delivers_ok rfl
  case case5 => exact delivers_bind fun _ _ => delivers_ok rfl
  all_goals exact delivers_error _

theorem parseHalt_delivers : (parseHalt ops).Delivers xlen := by
  fun_cases parseHalt ops
  · exact delivers_ok rfl
  · exact delivers_error _

theorem parseOperands_delivers : (parseOperands xlen k ops).Delivers xlen := by
  cases k with
  | load => exact parseLoad_delivers ops
  | store | jz | jnz => exact parseRA_delivers _ ops fun _ _ => rfl
  | not => exact parseNot_delivers ops
  | jmp => exact parseJmp_delivers ops
  | print => exact parsePrint_delivers ops
  | halt => exact parseHalt_delivers ops
  | _ => exact parseRRR_delivers _ ops fun _ _ _ => rfl

theorem parse_delivers (line : List Char) : (parse xlen line).Delivers xlen := by
  fun_cases parse xlen line
  · exact delivers_error _
  · exact delivers_error _
  · exact parseOperands_delivers _ _

end

/-- Settles O16: each mnemonic's operands deliver well-formed instructions only, and so do the fields of a word. -/
theorem decodersDeliverWellFormedInstructions : Obligations.DecodersDeliverWellFormedInstructions := fun _ i =>
  ⟨fun line => parse_delivers line i, fun _ h => (decodeWord_eq_ok h).1⟩

/-! ### Canonical text (R85) -/

/-- The character can stand in a token of a line: it is neither white space nor `;` (R60, R61). -/
abbrev IsTokenChar (c : Char) : Prop := isSpace c = false ∧ c ≠ ';'

/-- The characters can be a token of a line. -/
def IsToken (t : List Char) : Prop := t ≠ [] ∧ ∀ c ∈ t, IsTokenChar c

theorem splits_joinTokens {ts : List (List Char)} (h : ∀ t ∈ ts, IsToken t) : Splits (joinTokens ts) ts := by
  have hnil : ∀ d ∈ ([] : List Char), isSpace d = true := by simp
  fun_induction joinTokens ts with
  | case1 => exact .done [] hnil
  | case2 t =>
    obtain ⟨hne, hchars⟩ := h t (by simp)
    simpa using Splits.token [] t [] [] hnil hne (fun c hc => (hchars c hc).1) nofun (.done [] hnil)
  | case3 t u ts ih =>
    obtain ⟨⟨hne, hchars⟩, htail⟩ := List.forall_mem_cons.1 h
    exact .token [] t (' ' :: joinTokens (u :: ts)) _ hnil hne (fun c hc => (hchars c hc).1) (by simp [isSpace])
      ((ih htail).cons_of_space rfl)

theorem ne_semicolon_of_mem_joinTokens {ts : List (List Char)} (h : ∀ t ∈ ts, IsToken t) :
    ∀ c ∈ joinTokens ts, c ≠ ';' := by
  fun_induction joinTokens ts with
  | case1 => simp
  | case2 t => exact fun c hc => ((h t (by simp)).2 c hc).2
  | case3 t u ts ih =>
    obtain ⟨⟨-, hchars⟩, htail⟩ := List.forall_mem_cons.1 h
    simp only [List.mem_append, List.mem_cons]
    rintro c (hc | rfl | hc)
    · exact (hchars c hc).2
    · decide
    · exact ih htail c hc

/-- Tokens joined by spaces are the tokens of the line. -/
theorem tokens_joinTokens {ts : List (List Char)} (h : ∀ t ∈ ts, IsToken t) : tokens (joinTokens ts) = ts := by
  have hstrip : stripComment (joinTokens ts) = joinTokens ts :=
    List.takeWhile_eq_self_iff.2 fun c hc => bne_iff_ne.2 (ne_semicolon_of_mem_joinTokens h c hc)
  rw [tokens, hstrip, tokensFrom_of_splits (splits_joinTokens h)]

theorem Mnemonic.isToken_text (k : Mnemonic) : IsToken k.text := by
  cases k <;> simp [IsToken, IsTokenChar, Mnemonic.text, isSpace]

theorem isTokenChar_decChar {v : Nat} (hv : v < 10) : IsTokenChar (decChar v) := by
  have hall : ∀ v : Fin 10, IsTokenChar (decChar v) := by decide
  exact hall ⟨v, hv⟩

theorem Reg.isToken_text (r : Reg) : IsToken r.text :=
  ⟨List.cons_ne_nil _ _, by simpa [Reg.text] using ⟨by decide, isTokenChar_decChar (lt_trans r.index_lt (by decide))⟩⟩

theorem isTokenChar_hexChar {v : Nat} (hv : v < 16) : IsTokenChar (hexChar v) := by
  have hall : ∀ v : Fin 16, IsTokenChar (hexChar v) := by decide
  exact hall ⟨v, hv⟩

theorem isToken_addrText (a : Addr) : IsToken (addrText a) := by
  have ha : a.toNat < 256 := a.isLt
  have hhigh := isTokenChar_hexChar (v := a.toNat / 16) (by omega)
  have hlow := isTokenChar_hexChar (v := a.toNat % 16) (by omega)
  exact ⟨by simp [addrText], by simpa [addrText] using ⟨by decide, by decide, hhigh, hlow⟩⟩

@[simp] theorem addressToken_addrText (a : Addr) : addressToken (addrText a) = .ok a := by
  have ha : a.toNat < 256 := a.isLt
  have hhigh := (hexDigit_hexChar (v := a.toNat / 16) (by omega)).1
  have hlow := (hexDigit_hexChar (v := a.toNat % 16) (by omega)).1
  have hsum : a.toNat / 16 * 16 + a.toNat % 16 = a.toNat := by omega
  simp [addressToken, addrText, digitsValue, digitsFrom, hhigh, hlow, hsum, Nat.lt_succ_iff.1 ha]

/-- The written digits of a number that has at most `fuel + 1` of them are read back in front of `acc`. -/
theorem digitsFrom_decCharsFrom {fuel n : Nat} (acc : List Char) (hn : n < 10 ^ (fuel + 1)) :
    digitsFrom 10 decDigit 0 (decCharsFrom fuel n acc) = digitsFrom 10 decDigit n acc := by
  induction fuel generalizing n acc with
  | zero =>
    have hlt : n < 10 := by simpa using hn
    simp [decCharsFrom, digitsFrom, Nat.mod_eq_of_lt hlt, decDigit_decChar hlt]
  | succ fuel ih =>
    unfold decCharsFrom
    split
    · next hlt => simp [digitsFrom, decDigit_decChar hlt]
    · have hdigit : decDigit (decChar (n % 10)) = some (n % 10) := decDigit_decChar (Nat.mod_lt n (by decide))
      rw [ih _ (Nat.div_lt_of_lt_mul (pow_succ' 10 (fuel + 1) ▸ hn)), digitsFrom, hdigit]
      simp only [Nat.div_add_mod']

/-- The written digits are decimal digits in front of `acc`, one or more. -/
theorem decCharsFrom_eq_append (fuel n : Nat) (acc : List Char) :
    ∃ v < 10, ∃ vs : List Nat, (∀ w ∈ vs, w < 10) ∧ decCharsFrom fuel n acc = decChar v :: vs.map decChar ++ acc := by
  have hlast : n % 10 < 10 := Nat.mod_lt n (by decide)
  induction fuel generalizing n acc with
  | zero => exact ⟨_, hlast, [], by simp, rfl⟩
  | succ fuel ih =>
    unfold decCharsFrom
    split
    · next hlt => exact ⟨n, hlt, [], by simp, rfl⟩
    · obtain ⟨v, hv, vs, hvs, heq⟩ := ih (n / 10) (decChar (n % 10) :: acc) (Nat.mod_lt _ (by decide))
      refine ⟨v, hv, vs ++ [n % 10], ?_, by simp [heq]⟩
      simpa [or_imp, forall_and] using ⟨hvs, hlast⟩

theorem isToken_decCharsFrom (fuel n : Nat) : IsToken (decCharsFrom fuel n []) := by
  obtain ⟨v, hv, vs, hvs, heq⟩ := decCharsFrom_eq_append fuel n []
  refine ⟨by simp [heq], ?_⟩
  simpa [heq] using ⟨isTokenChar_decChar hv, fun w hw => isTokenChar_decChar (hvs w hw)⟩

theorem isToken_valueText (xlen : Nat) (v : Int) : IsToken (valueText xlen v) := by
  have hdigits := isToken_decCharsFrom xlen v.natAbs
  unfold valueText
  split
  · exact ⟨List.cons_ne_nil _ _, List.forall_mem_cons.2 ⟨by decide, hdigits.2⟩⟩
  · exact hdigits

/-- The decimal digits of a number are read back as it. -/
theorem digitsValue_decCharsFrom {fuel n : Nat} (hn : n < 10 ^ (fuel + 1)) :
    digitsValue 10 decDigit (decCharsFrom fuel n []) = some n := by
  obtain ⟨v, -, vs, -, heq⟩ := decCharsFrom_eq_append fuel n []
  rw [heq, List.cons_append, digitsValue, ← List.cons_append, ← heq, digitsFrom_decCharsFrom [] hn, digitsFrom]

/-- A value in range has at most `xlen + 1` decimal digits. -/
theorem natAbs_lt_of_inRange {n : Nat} {v : Int} (hv : InRange n v) : v.natAbs < 10 ^ (n + 1) := by
  have hle : v.natAbs ≤ 2 ^ (n - 1) := by
    simp only [InRange, minValue, maxValue] at hv
    have hcast : ((2 ^ (n - 1) : Nat) : Int) = 2 ^ (n - 1) := by push_cast; rfl
    omega
  calc v.natAbs ≤ 2 ^ (n - 1) := hle
    _ ≤ 2 ^ (n + 1) := Nat.pow_le_pow_right (by decide) (by omega)
    _ < 10 ^ (n + 1) := Nat.pow_lt_pow_left (by decide) (by omega)

theorem decimalValue_valueText {n : Nat} {v : Int} (hv : InRange n v) : decimalValue (valueText n v) = some v := by
  have hspells := decValue_eq_some_iff.1 (digitsValue_decCharsFrom (natAbs_lt_of_inRange hv))
  rw [decimalValue_eq_some_iff, valueText]
  split
  · exact .inr ⟨_, _, rfl, hspells, by omega⟩
  · exact .inl ⟨_, hspells, by omega⟩

theorem valueToken_valueText {n : Nat} {v : Int} (hv : InRange n v) : valueToken n (valueText n v) = .ok v :=
  valueToken_eq_ok_iff.2 ⟨hv, decimalValue_valueText hv⟩

theorem Instr.isToken_operandTokens (xlen : Nat) (i : Instr) : ∀ t ∈ i.operandTokens xlen, IsToken t := by
  have hmem : IsToken ['M', 'E', 'M'] := by simp [IsToken, IsTokenChar, isSpace]
  cases i <;> simp [Instr.operandTokens, Reg.isToken_text, isToken_addrText, isToken_valueText, hmem]

/-- The operand tokens of the canonical text are read back as the instruction's own operands. -/
theorem parseOperands_operandTokens {xlen : Nat} {i : Instr} (hw : i.wellFormed xlen = true) :
    parseOperands xlen i.mnemonic (i.operandTokens xlen) = .ok i := by
  cases i with
  | load d v =>
    have hv := valueToken_valueText (of_decide_eq_true hw)
    simp [Instr.mnemonic, Instr.operandTokens, parseOperands, parseLoad, hv]
  | print s =>
    rw [Instr.mnemonic, Instr.operandTokens, parseOperands, Reg.text, parsePrint_register, ← Reg.text, registerToken_text,
      Decoded.ok_bind]
  | printMem a => simp [Instr.mnemonic, Instr.operandTokens, parseOperands, parsePrint_mem]
  | store | jz | jnz => simp [Instr.mnemonic, Instr.operandTokens, parseOperands, parseRA]
  | not => simp [Instr.mnemonic, Instr.operandTokens, parseOperands, parseNot]
  | jmp => simp [Instr.mnemonic, Instr.operandTokens, parseOperands, parseJmp]
  | halt => rfl
  | _ => simp [Instr.mnemonic, Instr.operandTokens, parseOperands, parseRRR]

/-- Settles O17: the tokens of the canonical text are the ones it was joined from, and each is read back. -/
theorem canonicalTextDecodesToItsInstruction : Obligations.CanonicalTextDecodesToItsInstruction := by
  intro xlen i hw
  have htoks : tokens (i.canonical xlen) = i.mnemonic.text :: i.operandTokens xlen :=
    tokens_joinTokens (List.forall_mem_cons.2 ⟨i.mnemonic.isToken_text, i.isToken_operandTokens xlen⟩)
  rw [parse_of_known htoks (Mnemonic.ofText_text _), parseOperands_operandTokens hw]

end Sys2Proof
end

section
/-! Program text and programs of words (spec 30_encoding.md R76, 60_exceptions.md R164, R165, 70_reset_and_hazards.md R182):
which lines make the program array, and the first bad line or word. -/

namespace Sys2Proof

open Machine

section
variable {xlen : Nat} {l : List Char} {ls : List (List Char)} {n : Nat}

theorem parseLinesFrom_of_ok {i : Instr} (hl : parse xlen l = .ok i) {p : List Instr} :
    parseLinesFrom xlen n (l :: ls) = .ok p ↔ ∃ q, p = i :: q ∧ parseLinesFrom xlen (n + 1) ls = .ok q := by
  rw [parseLinesFrom, hl]
  cases h : parseLinesFrom xlen (n + 1) ls <;> simp [eq_comm]

theorem parseLinesFrom_of_empty (hl : parse xlen l = .error .emptyInstruction) :
    parseLinesFrom xlen n (l :: ls) = parseLinesFrom xlen (n + 1) ls := by
  rw [parseLinesFrom, hl]

theorem parseLinesFrom_of_error {e : DecodeError} (hl : parse xlen l = .error e) (he : e ≠ .emptyInstruction) :
    parseLinesFrom xlen n (l :: ls) = .error n e := by
  rw [parseLinesFrom, hl]
  cases e with
  | emptyInstruction => exact absurd rfl he
  | _ => rfl

theorem parseLinesFrom_of_unsettled (hl : parse xlen l = .unsettled) :
    parseLinesFrom xlen n (l :: ls) = .unsettled := by
  rw [parseLinesFrom, hl]

end

theorem parseLinesFrom_eq_ok_iff {xlen n : Nat} {lines : List (List Char)} {p : List Instr} :
    parseLinesFrom xlen n lines = .ok p ↔
      (lines.map (parse xlen)).filter (fun x => x ≠ .error .emptyInstruction) = p.map .ok := by
  induction lines generalizing n p with
  | nil => cases p <;> simp [parseLinesFrom]
  | cons l ls ih =>
    cases hl : parse xlen l with
    | ok i =>
      rw [parseLinesFrom_of_ok hl]
      simp only [ih]
      cases p with
      | nil => simp [hl]
      | cons j p => simp [hl, @eq_comm _ j i, @eq_comm _ p]
    | error e =>
      by_cases he : e = .emptyInstruction
      · rw [parseLinesFrom_of_empty (he ▸ hl), ih]
        simp [hl, he]
      · rw [parseLinesFrom_of_error hl he]
        cases p <;> simp [hl, he]
    | unsettled =>
      rw [parseLinesFrom_of_unsettled hl]
      cases p <;> simp [hl]

/-- Settles O18, by induction on the lines. -/
theorem programArraySkipsEmptyLines : Obligations.ProgramArraySkipsEmptyLines := fun _ _ _ => parseLinesFrom_eq_ok_iff

/-- The program array holds what its lines decode to. -/
theorem exists_line_of_mem_program {xlen : Nat} {lines : List (List Char)} {p : List Instr} {i : Instr}
    (h : parseProgram xlen lines = .ok p) (hi : i ∈ p) : ∃ l ∈ lines, parse xlen l = .ok i := by
  have hmem : Decoded.ok i ∈ (lines.map (parse xlen)).filter (fun x => x ≠ .error .emptyInstruction) :=
    parseLinesFrom_eq_ok_iff.1 h ▸ List.mem_map_of_mem hi
  exact List.mem_map.1 (List.mem_of_mem_filter hmem)

/-- The first bad line ends the load, under its own number. -/
theorem parseLinesFrom_append_error {xlen n : Nat} {before after : List (List Char)} {l : List Char} {e : DecodeError}
    (hl : parse xlen l = .error e) (he : e ≠ .emptyInstruction)
    (hb : ∀ l ∈ before, (∃ i, parse xlen l = .ok i) ∨ parse xlen l = .error .emptyInstruction) :
    parseLinesFrom xlen n (before ++ l :: after) = .error (n + before.length) e := by
  induction before generalizing n with
  | nil => exact parseLinesFrom_of_error hl he
  | cons b before ih =>
    obtain ⟨hb0, hb⟩ := List.forall_mem_cons.1 hb
    have htail := ih (n := n + 1) hb
    have hnum : n + 1 + before.length = n + (b :: before).length := by simp; omega
    obtain ⟨i, hi⟩ | hempty := hb0
    · rw [List.cons_append, parseLinesFrom, hi, htail, hnum]
    · rw [List.cons_append, parseLinesFrom_of_empty hempty, htail, hnum]

theorem decodeWordsFrom_append_error {xlen n : Nat} {before after : List (BitVec (16 + xlen))} {w : BitVec (16 + xlen)}
    {e : DecodeError} (hw : decodeWord xlen w = .error e) (hb : ∀ x ∈ before, ∃ i, decodeWord xlen x = .ok i) :
    decodeWordsFrom xlen n (before ++ w :: after) = .error (n + before.length) e := by
  induction before generalizing n with
  | nil => simp [decodeWordsFrom, hw]
  | cons b before ih =>
    obtain ⟨⟨i, hi⟩, hb⟩ := List.forall_mem_cons.1 hb
    rw [List.cons_append, decodeWordsFrom, hi, ih (n := n + 1) hb, List.length_cons, add_assoc, add_comm 1]

/-- Settles O19: the decoders end at the first bad line or word, and a load then answers the state it was given. -/
theorem malformedProgramLoadsNothing : Obligations.MalformedProgramLoadsNothing := by
  refine ⟨fun s before after line e hl he hb => ?_, fun s before after w e hw hb => ?_⟩
  · rw [loadText, parseProgram, parseLinesFrom_append_error hl he hb, loadDecoded, add_comm]
  · rw [loadWords, decodeWordsFrom_append_error hw hb, loadDecoded, add_comm]

end Sys2Proof
end

section
/-! The record level (spec 30_encoding.md R77 to R80): the well-formed records are the records of well-formed instructions, one
each, and any other is refused. -/

namespace Sys2Proof

open Machine

/-! ### Records and instructions (R79) -/

theorem Instr.record_statement (i : Instr) : Laws.Record.Statement i := by
  cases i with
  | load d v => exact Laws.Record.load d v
  | store s a => exact Laws.Record.store s a
  | add d a b => exact Laws.Record.add d a b
  | sub d a b => exact Laws.Record.sub d a b
  | mul d a b => exact Laws.Record.mul d a b
  | div d a b => exact Laws.Record.div d a b
  | rem d a b => exact Laws.Record.rem d a b
  | and d a b => exact Laws.Record.and d a b
  | or d a b => exact Laws.Record.or d a b
  | xor d a b => exact Laws.Record.xor d a b
  | shl d a b => exact Laws.Record.shl d a b
  | shr d a b => exact Laws.Record.shr d a b
  | not d s => exact Laws.Record.not d s
  | gt d a b => exact Laws.Record.gt d a b
  | lt d a b => exact Laws.Record.lt d a b
  | gte d a b => exact Laws.Record.gte d a b
  | lte d a b => exact Laws.Record.lte d a b
  | eq d a b => exact Laws.Record.eq d a b
  | neq d a b => exact Laws.Record.neq d a b
  | jmp a => exact Laws.Record.jmp a
  | jz s a => exact Laws.Record.jz s a
  | jnz s a => exact Laws.Record.jnz s a
  | print s => exact Laws.Record.print s
  | printMem a => exact Laws.Record.printMem a
  | halt => exact Laws.Record.halt

theorem Instr.record_wellFormed (xlen : Nat) (i : Instr) : i.record.wellFormed xlen = i.wellFormed xlen :=
  (i.record_statement xlen).1

theorem Instr.toInstr_record {xlen : Nat} {i : Instr} (hw : i.wellFormed xlen = true) : i.record.toInstr xlen = some i :=
  (i.record_statement xlen).2 hw

/-! ### What each shape's operands are -/

theorem admits_reg_iff {xlen : Nat} {o : Int} : OperandKind.reg.admits xlen o = true ↔ ∃ r : Reg, o = r.index := by
  constructor
  · intro h
    obtain ⟨h0, h3⟩ := of_decide_eq_true h
    exact ⟨.ofField o.toNat, by rw [Reg.index_ofField]; omega⟩
  · rintro ⟨r, rfl⟩
    exact Laws.Record.admits_reg xlen r

theorem admits_addr_iff {xlen : Nat} {o : Int} : OperandKind.addr.admits xlen o = true ↔ ∃ a : Addr, o = a.toNat := by
  constructor
  · intro h
    obtain ⟨h0, h255⟩ := of_decide_eq_true h
    exact ⟨BitVec.ofNat 8 o.toNat, by rw [BitVec.toNat_ofNat]; omega⟩
  · rintro ⟨a, rfl⟩
    exact Laws.Record.admits_addr xlen a

theorem admits_sentinel_iff {xlen : Nat} {o : Int} : OperandKind.sentinel.admits xlen o = true ↔ o = -1 := decide_eq_true_iff

theorem fitsShape_nil {xlen : Nat} {os : List Int} : fitsShape xlen [] os = true ↔ os = [] := by
  cases os <;> simp [fitsShape]

theorem fitsShape_cons {xlen : Nat} {k : OperandKind} {ks : List OperandKind} {os : List Int} :
    fitsShape xlen (k :: ks) os = true ↔ ∃ o, k.admits xlen o = true ∧ ∃ os', fitsShape xlen ks os' = true ∧ os = o :: os' := by
  cases os <;> simp [fitsShape]

/-- A well-formed record is read as some instruction. -/
theorem Record.exists_toInstr {xlen : Nat} {r : Record} (h : r.wellFormed xlen = true) : ∃ i, r.toInstr xlen = some i := by
  obtain ⟨k, os⟩ := r
  rw [Record.wellFormed, List.any_eq_true] at h
  obtain ⟨ks, hks, hfit⟩ := h
  cases k <;> simp only [Mnemonic.shapes, List.mem_cons, List.not_mem_nil, or_false] at hks
  case load =>
    subst hks
    simp only [fitsShape_cons, fitsShape_nil, admits_reg_iff, Laws.Record.admits_value, decide_eq_true_iff] at hfit
    obtain ⟨-, ⟨d, rfl⟩, -, ⟨v, hv, -, rfl, rfl⟩, rfl⟩ := hfit
    exact ⟨.load d v, Instr.toInstr_record (i := .load d v) (decide_eq_true hv)⟩
  case store | jz | jnz =>
    subst hks
    simp only [fitsShape_cons, fitsShape_nil, admits_reg_iff, admits_addr_iff] at hfit
    obtain ⟨-, ⟨s, rfl⟩, -, ⟨-, ⟨a, rfl⟩, -, rfl, rfl⟩, rfl⟩ := hfit
    simp [Record.toInstr, ofRA]
  case not =>
    subst hks
    simp only [fitsShape_cons, fitsShape_nil, admits_reg_iff] at hfit
    obtain ⟨-, ⟨d, rfl⟩, -, ⟨-, ⟨s, rfl⟩, -, rfl, rfl⟩, rfl⟩ := hfit
    simp [Record.toInstr, ofNot]
  case jmp =>
    subst hks
    simp only [fitsShape_cons, fitsShape_nil, admits_addr_iff] at hfit
    obtain ⟨-, ⟨a, rfl⟩, -, rfl, rfl⟩ := hfit
    simp [Record.toInstr, ofJmp]
  case print =>
    obtain rfl | rfl := hks
    · simp only [fitsShape_cons, fitsShape_nil, admits_reg_iff, admits_sentinel_iff] at hfit
      obtain ⟨-, rfl, -, ⟨-, ⟨s, rfl⟩, -, rfl, rfl⟩, rfl⟩ := hfit
      simp [Record.toInstr, ofPrint]
    · simp only [fitsShape_cons, fitsShape_nil, admits_addr_iff] at hfit
      obtain ⟨-, ⟨a, rfl⟩, -, rfl, rfl⟩ := hfit
      simp [Record.toInstr, ofPrint]
  case halt =>
    subst hks
    obtain rfl := fitsShape_nil.1 hfit
    exact ⟨.halt, rfl⟩
  all_goals
    subst hks
    simp only [fitsShape_cons, fitsShape_nil, admits_reg_iff] at hfit
    obtain ⟨-, ⟨d, rfl⟩, -, ⟨-, ⟨s1, rfl⟩, -, ⟨-, ⟨s2, rfl⟩, -, rfl, rfl⟩, rfl⟩, rfl⟩ := hfit
    simp [Record.toInstr, ofRRR]

/-! ### Reading operands -/

section
variable {os : List Int} {i : Instr}

theorem ofRRR_eq_some {mk : Reg → Reg → Reg → Instr} (h : ofRRR mk os = some i) :
    ∃ d s1 s2 : Reg, os = [(d.index : Int), s1.index, s2.index] ∧ i = mk d s1 s2 := by
  revert h
  fun_cases ofRRR mk os
  case case1 o1 o2 o3 d s1 s2 hd h1 h2 =>
    intro h
    rw [regOperand_eq_some] at hd h1 h2
    exact ⟨d, s1, s2, by rw [hd, h1, h2], (Option.some.inj h).symm⟩
  all_goals exact nofun

theorem ofRA_eq_some {mk : Reg → Addr → Instr} (h : ofRA mk os = some i) :
    ∃ (s : Reg) (a : Addr), os = [(s.index : Int), (a.toNat : Int)] ∧ i = mk s a := by
  revert h
  fun_cases ofRA mk os
  case case1 o1 o2 s a ha hs =>
    intro h
    rw [regOperand_eq_some] at hs
    rw [addrOperand_eq_some] at ha
    exact ⟨s, a, by rw [hs, ha], (Option.some.inj h).symm⟩
  all_goals exact nofun

theorem ofLoad_eq_some {xlen : Nat} (h : ofLoad xlen os = some i) :
    ∃ (d : Reg) (v : Int), InRange xlen v ∧ os = [(d.index : Int), v] ∧ i = .load d v := by
  revert h
  fun_cases ofLoad xlen os
  case case1 o v hv =>
    intro h
    obtain ⟨d, hd, rfl⟩ := Option.map_eq_some_iff.1 h
    exact ⟨d, v, hv, by rw [regOperand_eq_some.1 hd], rfl⟩
  all_goals exact nofun

theorem ofNot_eq_some (h : ofNot os = some i) : ∃ d s : Reg, os = [(d.index : Int), (s.index : Int)] ∧ i = .not d s := by
  revert h
  fun_cases ofNot os
  case case1 o1 o2 d s hd hs =>
    intro h
    rw [regOperand_eq_some] at hd hs
    exact ⟨d, s, by rw [hd, hs], (Option.some.inj h).symm⟩
  all_goals exact nofun

theorem ofJmp_eq_some (h : ofJmp os = some i) : ∃ a : Addr, os = [(a.toNat : Int)] ∧ i = .jmp a := by
  revert h
  fun_cases ofJmp os
  case case1 o =>
    intro h
    obtain ⟨a, ha, rfl⟩ := Option.map_eq_some_iff.1 h
    exact ⟨a, by rw [addrOperand_eq_some.1 ha], rfl⟩
  all_goals exact nofun

theorem ofPrint_eq_some (h : ofPrint os = some i) :
    (∃ s : Reg, os = [-1, (s.index : Int)] ∧ i = .print s) ∨ ∃ a : Addr, os = [(a.toNat : Int)] ∧ i = .printMem a := by
  revert h
  fun_cases ofPrint os
  case case1 o =>
    intro h
    obtain ⟨s, hs, rfl⟩ := Option.map_eq_some_iff.1 h
    exact .inl ⟨s, by rw [regOperand_eq_some.1 hs], rfl⟩
  case case3 o =>
    intro h
    obtain ⟨a, ha, rfl⟩ := Option.map_eq_some_iff.1 h
    exact .inr ⟨a, by rw [addrOperand_eq_some.1 ha], rfl⟩
  all_goals exact nofun

theorem ofHalt_eq_some (h : ofHalt os = some i) : os = [] ∧ i = .halt := by
  revert h
  fun_cases ofHalt os
  · exact fun h => ⟨rfl, (Option.some.inj h).symm⟩
  · exact nofun

end

/-- What a record is read as is well-formed and has that record. -/
theorem Record.toInstr_eq_some {xlen : Nat} {r : Record} {i : Instr} (h : r.toInstr xlen = some i) :
    i.wellFormed xlen = true ∧ i.record = r := by
  obtain ⟨k, os⟩ := r
  cases k with
  | load =>
    obtain ⟨d, v, hv, rfl, rfl⟩ := ofLoad_eq_some h
    exact ⟨decide_eq_true hv, rfl⟩
  | store | jz | jnz =>
    obtain ⟨s, a, rfl, rfl⟩ := ofRA_eq_some h
    exact ⟨rfl, rfl⟩
  | not =>
    obtain ⟨d, s, rfl, rfl⟩ := ofNot_eq_some h
    exact ⟨rfl, rfl⟩
  | jmp =>
    obtain ⟨a, rfl, rfl⟩ := ofJmp_eq_some h
    exact ⟨rfl, rfl⟩
  | print => obtain ⟨s, rfl, rfl⟩ | ⟨a, rfl, rfl⟩ := ofPrint_eq_some h <;> exact ⟨rfl, rfl⟩
  | halt =>
    obtain ⟨rfl, rfl⟩ := ofHalt_eq_some h
    exact ⟨rfl, rfl⟩
  | _ =>
    obtain ⟨d, s1, s2, rfl, rfl⟩ := ofRRR_eq_some h
    exact ⟨rfl, rfl⟩

/-- Settles O6: a well-formed record is read as an instruction, and what a record is read as is well-formed with that record. -/
theorem wellFormedRecordsAreTypedInstructions : Obligations.WellFormedRecordsAreTypedInstructions := by
  refine fun xlen r => ⟨⟨Record.exists_toInstr, ?_⟩, fun i => ⟨Record.toInstr_eq_some, ?_⟩⟩
  · rintro ⟨i, hi⟩
    obtain ⟨hw, rfl⟩ := Record.toInstr_eq_some hi
    rwa [Instr.record_wellFormed]
  · rintro ⟨hw, rfl⟩
    exact Instr.toInstr_record hw

/-- Settles O7: the first operand of the other form is an address, which is not negative. -/
theorem printSentinelSelectsTheRegisterForm : Obligations.PrintSentinelSelectsTheRegisterForm := by
  intro i htag
  cases i <;> simp only [Instr.record, Instr.mnemonic, reduceCtorEq] at htag
  case print s => exact iff_of_true rfl ⟨s, rfl⟩
  case printMem a =>
    refine iff_of_false (fun h => ?_) nofun
    have haddr : (a.toNat : Int) = -1 := Option.some.inj h
    omega

/-! ### Refused records (R79, D20) -/

/-- Settles O31: a record that is not well-formed is read as no instruction, and a LOAD checks its literal. -/
theorem illFormedRecordsAreRefused : Obligations.IllFormedRecordsAreRefused := by
  refine ⟨fun s r hr => ?_, fun s d v hv => withLiteral_outOfRange hv⟩
  cases hi : r.toInstr s.cfg.xlen with
  | none => rw [executeRecord, hi]
  | some i =>
    obtain ⟨hw, rfl⟩ := Record.toInstr_eq_some hi
    rw [Instr.record_wellFormed, hw] at hr
    exact nomatch hr

end Sys2Proof
end

section
/-! One instruction (spec 10_state.md R21, R23, R29, 20_memory.md R40, R43, R50): the next program counter and status by the step
result, and what an instruction reads and writes. -/

namespace Sys2Proof.Machine

/-! ### Step results (R23, R29) -/

/-- A taken jump has the one effect of loading its target. -/
theorem exec_of_taken {s : State} {i : Instr} (h : stepResult s i = .taken) :
    ∃ a : Addr, jumpTarget i = some a ∧ exec i s = .next (s.setPc a.toNat) := by
  cases i with
  | jmp a => exact ⟨a, rfl, rfl⟩
  | jz r a =>
    have hz : s.getReg r = 0 := by by_contra hz; simp [stepResult, State.isZero, hz] at h
    exact ⟨a, rfl, by rw [exec_jz, if_pos hz]⟩
  | jnz r a =>
    have hz : s.getReg r ≠ 0 := by intro hz; simp [stepResult, State.isZero, hz] at h
    exact ⟨a, rfl, by rw [exec_jnz, if_neg hz]⟩
  | div _ _ b | rem _ _ b => cases hb : s.isZero b <;> simp [stepResult, hb] at h
  | _ => exact nomatch h

theorem exec_pc_of_cont {s t : State} {i : Instr} (h : exec i s = .next t) (hr : stepResult s i = .cont) : t.pc = s.pc + 1 := by
  obtain ⟨d, -, -, -, -, rfl⟩ | ⟨-, hf, -⟩ | ⟨r, a, -, -, rfl⟩ | ⟨a, -, ht, -⟩ | ⟨-, -, rfl⟩ | ⟨r, -, -, rfl⟩ |
    ⟨a, -, -, rfl⟩ | ⟨-, hh, -⟩ := exec_cases h
  case inr.inl => exact nomatch hr.symm.trans hf
  case inr.inr.inr.inl => exact nomatch hr.symm.trans ht
  case inr.inr.inr.inr.inr.inr.inr => exact nomatch hr.symm.trans hh
  all_goals rfl

theorem eq_halt_of_halted {s : State} {i : Instr} (h : stepResult s i = .halted) : i = .halt := by
  cases i with
  | halt => rfl
  | div _ _ b | rem _ _ b => cases hb : s.isZero b <;> simp [stepResult, hb] at h
  | jz r _ | jnz r _ => cases hb : s.isZero r <;> simp [stepResult, hb] at h
  | _ => exact nomatch h

theorem exec_halt (s : State) : exec .halt s = .next (s.setStatus .halted) := rfl

/-- Settles O27: each step result but `Continue` determines the whole effect. -/
theorem nextProgramCounter : Obligations.NextProgramCounter := by
  refine fun i s t h => ⟨exec_pc_of_cont h, fun hr => ?_, fun hr => ?_, fun c hr => ?_⟩
  · obtain ⟨a, ha, hexec⟩ := exec_of_taken hr
    obtain rfl := Host.Outcome.next.inj (hexec.symm.trans h)
    exact ⟨a, ha, rfl⟩
  · obtain rfl := eq_halt_of_halted hr
    obtain rfl := Host.Outcome.next.inj ((exec_halt s).symm.trans h)
    exact ⟨rfl, rfl⟩
  · have hz := dividesByZero_of_stepResult_faulted hr
    obtain rfl := Host.Outcome.next.inj ((exec_faults hz).symm.trans h)
    obtain ⟨d, a, b, hi, -⟩ := dividesByZero_iff.1 hz
    exact ⟨rfl, d, a, b, hi⟩

/-- The status after an instruction: as before if it goes on, else the one of its step result. -/
theorem exec_status {s t : State} {i : Instr} (h : exec i s = .next t) :
    t.status = if (stepResult s i).continues then s.status else (stepResult s i).status := by
  obtain ⟨es, htr, -, hsame⟩ := exec_congr h s.program s.status s.trace
  rw [show ({ s with program := s.program, status := s.status, trace := s.trace } : State) = s from rfl, h] at hsame
  exact congrArg State.status (Host.Outcome.next.inj hsame)

/-- At a running core the status after an instruction is the one of its step result (R29). -/
theorem exec_status_of_running {s t : State} {i : Instr} (hs : s.status = .running) (h : exec i s = .next t) :
    t.status = (stepResult s i).status := by
  rw [exec_status h, hs]
  cases stepResult s i <;> rfl

theorem StepResult.continues_iff (r : StepResult) : r.continues = true ↔ r.status = .running := by
  cases r <;> simp [StepResult.continues, StepResult.status]

theorem StepResult.stops_iff (r : StepResult) :
    r.continues = false ↔ r.status = .halted ∨ r.status = .faulted .divideByZero := by
  cases r <;> simp [StepResult.continues, StepResult.status]

/-- Settles O28: `execute` answers what `exec` does, exactly where the host may ask for it. -/
theorem statusFollowsTheStepResult : Obligations.StatusFollowsTheStepResult := by
  refine fun i s hs => ⟨fun t b h => ?_, fun hmay t h => ?_, fun hp hf => ?_⟩
  · obtain ⟨-, -, hexec, rfl⟩ := execute_cases h
    rw [exec_status_of_running hs hexec]
    exact ⟨hexec, rfl, StepResult.continues_iff _, StepResult.stops_iff _⟩
  · exact ⟨_, execute_of_next hs ((State.mayExecute_iff s i).2 hmay) h⟩
  · refine execute_of_other hs (Bool.eq_false_iff.2 fun hmay => ?_)
    exact ((State.mayExecute_iff s i).1 hmay).elim hp hf

/-! ### The effect of single instructions -/

/-- Settles O30: a LOAD with its literal in range is an instruction with a destination whose result is the literal. -/
theorem loadWritesItsLiteral : Obligations.LoadWritesItsLiteral := fun _ _ _ hv =>
  completesInto_of_dest rfl (decide_eq_true hv) id rfl

/-- Settles O32: STORE's one memory write, then the program counter. -/
theorem storeWritesOneCell : Obligations.StoreWritesOneCell := fun s r a hm =>
  have ⟨hcell, hother⟩ := exec_store_cells hm (exec_store r a s)
  ⟨_, exec_store r a s, hcell, hother, fun _ => rfl, ⟨rfl, rfl⟩, ⟨rfl, rfl⟩, rfl⟩

theorem movesPcTo_of_exec {i : Instr} {s : State} {p : Int} (h : exec i s = .next (s.setPc p)) : MovesPcTo i s p :=
  ⟨_, h, rfl, fun _ => rfl, fun _ => rfl, ⟨rfl, rfl⟩, ⟨rfl, rfl⟩⟩

/-- Settles O44: each jump has one equation, which sets the program counter and nothing else. -/
theorem jumpsLoadTheProgramCounter : Obligations.JumpsLoadTheProgramCounter := fun s r a =>
  ⟨movesPcTo_of_exec rfl,
    fun hz => ⟨movesPcTo_of_exec (by rw [exec_jz, if_pos hz]), movesPcTo_of_exec (by rw [exec_jnz, if_pos hz])⟩,
    fun hz => ⟨movesPcTo_of_exec (by rw [exec_jz, if_neg hz]), movesPcTo_of_exec (by rw [exec_jnz, if_neg hz])⟩⟩

theorem exec_print (r : Reg) (s : State) :
    exec (.print r) s = .next ((s.emit (.showReg r (s.getReg r))).setPc (s.pc + 1)) := rfl

theorem exec_printMem (a : Addr) (s : State) :
    exec (.printMem a) s = .next ((s.emit (.showMem a (s.readMem a))).setPc (s.pc + 1)) := rfl

/-- Settles O47: both forms append one event, then move the program counter. -/
theorem printEmitsOneEvent : Obligations.PrintEmitsOneEvent := fun s r a =>
  ⟨⟨_, exec_print r s, rfl, rfl, rfl, fun _ => rfl, fun _ => rfl, ⟨rfl, rfl⟩⟩,
    ⟨_, exec_printMem a s, rfl, rfl, rfl, fun _ => rfl, fun _ => rfl, ⟨rfl, rfl⟩⟩⟩

/-- Settles O48: HALT is one change of the status. -/
theorem haltOnlyStops : Obligations.HaltOnlyStops := fun s =>
  ⟨_, exec_halt s, rfl, rfl, rfl, fun _ => rfl, fun _ => rfl, ⟨rfl, rfl⟩⟩

/-! ### Registers read and written (R21) -/

/-- Settles O49: no effect but that of an instruction with a destination touches a register. -/
theorem onlyTheDestinationRegisterChanges : Obligations.OnlyTheDestinationRegisterChanges := by
  intro i s t r h hne
  obtain ⟨d, hd, -, -, -, rfl⟩ | ⟨-, -, rfl⟩ | ⟨q, a, -, -, rfl⟩ | ⟨a, -, -, rfl⟩ | ⟨-, -, rfl⟩ | ⟨q, -, -, rfl⟩ |
    ⟨a, -, -, rfl⟩ | ⟨-, -, rfl⟩ := exec_cases h
  case inl =>
    have hrd : r = d := by_contra fun hrd => hne (State.getReg_setReg_other s _ hrd)
    rw [hd, hrd]
  all_goals exact absurd rfl hne

/-! ### What an instruction's effect depends on (R21, R40, R43) -/

theorem wellFormed_of_exec {i : Instr} {s t : State} (h : exec i s = .next t) : i.wellFormed s.cfg.xlen = true := by
  cases i with
  | load d v =>
    by_contra hv
    exact nomatch (withLiteral_outOfRange (d := d) (mt decide_eq_true hv)).symm.trans h
  | _ => rfl

/-- The updates of the state an instruction can make, their operands fixed: a register written, the fault, a cell written, a
jump taken or not, an event of one of the two forms of PRINT, HALT. -/
inductive Update (i : Instr) (r : StepResult) : (State → State) → Prop where
  | write (d : Reg) (x : Int) (hd : dest i = some d) (hr : r = .cont) : Update i r fun u => (u.setReg d x).setPc (u.pc + 1)
  | fault (hr : r = .faulted .divideByZero) : Update i r fun u => u.raise .divideByZero
  | store (a : Addr) (x : Int) (hd : dest i = none) : Update i r fun u => (u.writeMem a x).setPc (u.pc + 1)
  | jump (b : Bool) (a : Addr) (hd : dest i = none) : Update i r fun u => u.setPc (if b then (a.toNat : Int) else u.pc + 1)
  | showReg (q : Reg) (x : Int) (hd : dest i = none) : Update i r fun u => (u.emit (.showReg q x)).setPc (u.pc + 1)
  | showMem (a : Addr) (hi : i = .printMem a) : Update i r fun u => (u.emit (.showMem a (u.readMem a))).setPc (u.pc + 1)
  | halt (hd : dest i = none) : Update i r fun u => u.setStatus .halted

/-- An instruction makes the same update of any two states with the same parameters that agree on its source registers. -/
theorem exec_agree {i : Instr} {s s' t : State} (hcfg : s'.cfg = s.cfg) (hsrc : ∀ r ∈ sources i, s'.getReg r = s.getReg r)
    (h : exec i s = .next t) : ∃ f, Update i (stepResult s i) f ∧ t = f s ∧ exec i s' = .next (f s') := by
  have hw := wellFormed_of_exec h
  have hresult : resultOf s' i = resultOf s i := by cases i <;> simp_all [resultOf, sources]
  have hzero : DividesByZero s' i ↔ DividesByZero s i := by cases i <;> simp_all [DividesByZero, sources]
  by_cases hz : DividesByZero s i
  · rw [exec_faults hz] at h
    exact ⟨_, .fault (stepResult_of_dividesByZero hz), (Host.Outcome.next.inj h).symm, exec_faults (hzero.2 hz)⟩
  cases hd : dest i with
  | some d =>
    rw [exec_writes hd hw hz] at h
    refine ⟨_, .write d (resultOf s i) hd (stepResult_of_dest hd hz), (Host.Outcome.next.inj h).symm, ?_⟩
    rw [exec_writes hd (hcfg ▸ hw) (hzero.not.2 hz), hresult]
  | none =>
    cases i <;> simp only [dest, reduceCtorEq] at hd
    case store r a =>
      refine ⟨_, .store a (s.getReg r) rfl, (Host.Outcome.next.inj h).symm, ?_⟩
      rw [exec_store, hsrc r (by simp [sources])]
    case jmp a => exact ⟨_, .jump true a rfl, (Host.Outcome.next.inj h).symm, rfl⟩
    case jz r a =>
      refine ⟨_, .jump (decide (s.getReg r = 0)) a rfl, ?_, ?_⟩
      · rw [exec_jz] at h
        simp [← Host.Outcome.next.inj h]
      · simp [exec_jz, hsrc r (by simp [sources])]
    case jnz r a =>
      refine ⟨_, .jump (decide (s.getReg r ≠ 0)) a rfl, ?_, ?_⟩
      · rw [exec_jnz] at h
        simp [← Host.Outcome.next.inj h]
      · simp [exec_jnz, hsrc r (by simp [sources])]
    case print r =>
      refine ⟨_, .showReg r (s.getReg r) rfl, (Host.Outcome.next.inj h).symm, ?_⟩
      rw [exec_print, hsrc r (by simp [sources])]
    case printMem a => exact ⟨_, .showMem a rfl, (Host.Outcome.next.inj h).symm, exec_printMem a s'⟩
    case halt => exact ⟨_, .halt rfl, (Host.Outcome.next.inj h).symm, exec_halt s'⟩

theorem RegFile.set_set_same (f : RegFile) (r : Reg) (v w : Int) : (f.set r v).set r w = f.set r w := by cases r <;> rfl

theorem RegFile.set_comm (f : RegFile) {q r : Reg} (v w : Int) (h : q ≠ r) : (f.set q v).set r w = (f.set r w).set q v := by
  refine RegFile.ext_get fun x => ?_
  by_cases hq : x = q
  · subst hq
    rw [RegFile.get_set_other _ _ h, RegFile.get_set_same, RegFile.get_set_same]
  · rw [RegFile.get_set_other _ _ hq]
    by_cases hr : x = r
    · subst hr
      rw [RegFile.get_set_same, RegFile.get_set_same]
    · rw [RegFile.get_set_other _ _ hr, RegFile.get_set_other _ _ hr, RegFile.get_set_other _ _ hq]

theorem State.setReg_setReg_same (s : State) (r : Reg) (v w : Int) : (s.setReg r v).setReg r w = s.setReg r w :=
  congrArg (fun f => { s with regs := f }) (RegFile.set_set_same s.regs r v w)

theorem State.setReg_comm (s : State) {q r : Reg} (v w : Int) (h : q ≠ r) :
    (s.setReg q v).setReg r w = (s.setReg r w).setReg q v :=
  congrArg (fun f => { s with regs := f }) (RegFile.set_comm s.regs v w h)

/-- Settles O50: every update but that of the destination leaves another value in a register as it finds it. -/
theorem onlySourceRegistersAreRead : Obligations.OnlySourceRegistersAreRead := by
  intro i s t r v hr h
  have hsrc : ∀ q ∈ sources i, (s.setReg r v).getReg q = s.getReg q := fun q hq =>
    State.getReg_setReg_other s v fun hqr => hr (hqr ▸ hq)
  obtain ⟨f, hf, rfl, hexec⟩ := exec_agree (State.setReg_cfg s r v) hsrc h
  rw [hexec]
  cases hf with
  | write d x hd hres =>
    by_cases hdr : d = r
    · subst hdr
      rw [if_pos ⟨hd, hres⟩]
      exact congrArg (fun u : State => Host.Outcome.next (u.setPc (s.pc + 1))) (State.setReg_setReg_same s d v x)
    · rw [if_neg (by simp [hd, hdr])]
      exact congrArg (fun u : State => Host.Outcome.next (u.setPc (s.pc + 1))) (State.setReg_comm s v x (Ne.symm hdr))
  | fault hres =>
    rw [if_neg (by simp [hres])]
    rfl
  | showMem a hi =>
    subst hi
    rfl
  | store _ _ hd | jump _ _ hd | showReg _ _ hd | halt hd =>
    rw [if_neg (by simp [hd])]
    rfl

/-- Settles O52: an update of a state with another memory differs from the update of that state in the memory only, and in the
event of PRINT MEM. -/
theorem memoryIsReadByPrintMemOnly : Obligations.MemoryIsReadByPrintMemOnly := by
  intro i s t m h
  obtain ⟨f, hf, rfl, hexec⟩ := exec_agree (s := s) (s' := { s with mem := m }) rfl (fun _ _ => rfl) h
  refine ⟨_, hexec, ?_⟩
  cases hf with
  | showMem a hi => exact ⟨rfl, rfl, rfl, fun hne => absurd hi (hne a)⟩
  | _ => exact ⟨rfl, rfl, rfl, fun _ => rfl⟩

/-! ### Programs of several instructions (R50) -/

theorem execAll_cons_eq_some {i : Instr} {is : List Instr} {s t : State} :
    execAll (i :: is) s = some t ↔ ∃ u, exec i s = .next u ∧ execAll is u = some t := by
  rw [execAll]
  cases exec i s <;> simp

theorem execAll_append_eq_some {is js : List Instr} {s t : State} :
    execAll (is ++ js) s = some t ↔ ∃ u, execAll is s = some u ∧ execAll js u = some t := by
  induction is generalizing s with
  | nil => simp [execAll]
  | cons i is ih =>
    simp only [List.cons_append, execAll_cons_eq_some, ih]
    exact ⟨fun ⟨v, hv, u, hu, ht⟩ => ⟨u, ⟨v, hv, hu⟩, ht⟩, fun ⟨u, ⟨v, hv, hu⟩, ht⟩ => ⟨v, hv, u, hu, ht⟩⟩

theorem exec_mem_wf {i : Instr} {s t : State} (hm : s.mem.wf = true) (h : exec i s = .next t) : t.mem.wf = true := by
  obtain hmem | ⟨r, a, rfl⟩ := exec_mem_eq_or_store h
  · rwa [hmem]
  · obtain rfl := Host.Outcome.next.inj ((exec_store r a s).symm.trans h)
    exact Memory.write_wf hm (Addr.toNat_lt_ncell a) _

theorem execAll_mem_wf {is : List Instr} {s t : State} (hm : s.mem.wf = true) (h : execAll is s = some t) :
    t.mem.wf = true := by
  induction is generalizing s with
  | nil => exact Option.some.inj h ▸ hm
  | cons i is ih =>
    obtain ⟨u, hu, ht⟩ := execAll_cons_eq_some.1 h
    exact ih (exec_mem_wf hm hu) ht

/-- An instruction that is no STORE to a cell leaves it as it was. -/
theorem exec_readMem_of_not_store {i : Instr} {s t : State} {a : Addr} (h : exec i s = .next t) (hi : ∀ q, i ≠ .store q a) :
    t.readMem a = s.readMem a := by
  obtain hmem | ⟨r, b, rfl⟩ := exec_mem_eq_or_store h
  · exact congrArg (Memory.read · a.toNat) hmem
  · obtain rfl := Host.Outcome.next.inj ((exec_store r b s).symm.trans h)
    exact State.readMem_writeMem_other s _ fun hab => hi r (hab ▸ rfl)

theorem execAll_readMem_of_not_store {is : List Instr} {s t : State} {a : Addr} (h : execAll is s = some t)
    (his : ∀ q, Instr.store q a ∉ is) : t.readMem a = s.readMem a := by
  induction is generalizing s with
  | nil => rw [Option.some.inj h]
  | cons i is ih =>
    obtain ⟨u, hu, ht⟩ := execAll_cons_eq_some.1 h
    simp only [List.mem_cons, not_or] at his
    rw [ih ht fun q => (his q).2, exec_readMem_of_not_store hu fun q hq => (his q).1 hq.symm]

/-- Settles O33: the STORE leaves the register's value in the cell, and no instruction after it changes the cell. -/
theorem cellHoldsTheLatestStore : Obligations.CellHoldsTheLatestStore := by
  refine ⟨fun s u t before after r a hm hu ht hafter => ?_, fun s t is a h his => execAll_readMem_of_not_store h his,
    fun c a => rfl⟩
  obtain ⟨u', hu', ht⟩ := execAll_append_eq_some.1 ht
  obtain rfl := Option.some.inj (hu.symm.trans hu')
  obtain ⟨v, hv, ht⟩ := execAll_cons_eq_some.1 ht
  rw [execAll_readMem_of_not_store ht hafter, (exec_store_cells (execAll_mem_wf hm hu) hv).1]

end Sys2Proof.Machine
end

section
/-! The cycle and the host's moves (spec 10_state.md R28 to R32, 44_control_flow.md R144, R145, 70_reset_and_hazards.md R184): what
a step runs, how a run goes on or ends, and what a line in immediate mode does. -/

namespace Sys2Proof.Machine

/-! ### Fetching (R30) -/

theorem State.fetch_eq_none {s : State} : s.fetch = none ↔ s.pc < 0 ∨ (s.proglen : Int) ≤ s.pc := by
  have hlen : s.proglen = s.program.length := rfl
  unfold State.fetch
  split
  · next h => exact iff_of_true rfl (.inl h)
  · rw [List.getElem?_eq_none_iff]
    omega

/-- Settles O23: the instruction at an index of the program is the one fetched. -/
theorem stepRunsTheFetchedInstruction : Obligations.StepRunsTheFetchedInstruction := fun _ _ hs hpc hi =>
  step_of_fetch hs (State.fetch_eq_some.2 ⟨hpc, hi⟩)

/-- Settles O25: outside the program nothing is fetched, and the status changes. -/
theorem stepOutsideTheProgramEndsTheRun : Obligations.StepOutsideTheProgramEndsTheRun := fun _ hs hpc =>
  ⟨_, step_of_end hs (State.fetch_eq_none.2 hpc), rfl, rfl, rfl, fun _ => rfl, fun _ => rfl, ⟨rfl, rfl⟩⟩

theorem executeRecord_ne_next_of_stopped {s : State} (hs : s.status ≠ .running) (r : Record) (x : State × Bool) :
    executeRecord r s ≠ .next x := by
  unfold executeRecord
  split
  · rw [execute_of_stopped hs]
    exact nofun
  · exact nofun

/-- Settles O26: the step and the host's moves check the status first. -/
theorem stoppedCoreTakesNoStep : Obligations.StoppedCoreTakesNoStep :=
  ⟨fun _ hs => ⟨step_of_stopped hs, fun _ => execute_of_stopped hs, fun _ => immediate_of_stopped hs,
    executeRecord_ne_next_of_stopped hs⟩, fun _ _ h => (step_cases h).1⟩

/-! ### Placing a word (R85) -/

theorem placeAt_getElem? (p : List Instr) (n : Nat) (i : Instr) : (placeAt p n i)[n]? = some i := by
  fun_induction placeAt p n i with
  | case1 | case2 => rfl
  | case3 n i ih => exact ih
  | case4 j p n i ih => exact ih

/-- A placed instruction is what the next step runs. -/
theorem step_placed (s : State) (i : Instr) : step (s.placed i) = exec i (s.placed i) :=
  step_of_fetch rfl (State.fetch_eq_some.2 ⟨Int.natCast_nonneg _, placeAt_getElem? s.program s.pc.toNat i⟩)

/-- The packed word of a well-formed instruction is placed as that instruction. -/
theorem State.withFetchWord_encode {s : State} {i : Instr} {n : Nat} (hn : 8 ≤ s.cfg.xlen)
    (hw : i.wellFormed s.cfg.xlen = true) (hbits : 16 + s.cfg.xlen ≤ n) :
    s.withFetchWord n (encode s.cfg.xlen i).toNat = s.placed i := by
  have hlt : (encode s.cfg.xlen i).toNat < 2 ^ n :=
    lt_of_lt_of_le (encode s.cfg.xlen i).isLt (Nat.pow_le_pow_right (by decide) hbits)
  rw [State.withFetchWord, State.placedWord, Nat.mod_eq_of_lt hlt, BitVec.ofNat_toNat, BitVec.setWidth_eq,
    encodedInstructionDecodesToItself _ i hn hw]

/-- Settles O24: placing the packed word places the instruction. -/
theorem placedWordIsTheOneThatRuns : Obligations.PlacedWordIsTheOneThatRuns := by
  intro s i n hn hw hbits
  rw [State.withFetchWord_encode hn hw hbits, step_placed]

/-! ### Jumps in a run (R144, R145) -/

/-- A taken jump's effect, with its target given. -/
theorem exec_of_taken_to {s : State} {i : Instr} {a : Addr} (hr : stepResult s i = .taken) (ha : jumpTarget i = some a) :
    exec i s = .next (s.setPc a.toNat) := by
  obtain ⟨b, hb, hexec⟩ := exec_of_taken hr
  rwa [Option.some.inj (ha.symm.trans hb)]

theorem run_of_step_self {s : State} (h : step s = .next s) (k : Nat) : Sys2Proof.core.run k s = .next s := by
  induction k with
  | zero => exact run_zero s
  | succ k ih => exact (run_succ_next k h).trans ih

/-- Settles O45: the jump's step answers the state it was given. -/
theorem selfJumpRepeatsForever : Obligations.SelfJumpRepeatsForever := by
  intro s i a k hs hpc hi hr ha
  have hfetch : s.fetch = some i := State.fetch_eq_some.2 ⟨by omega, by rwa [hpc]⟩
  have hself : s.setPc a.toNat = s := by rw [← hpc]; rfl
  exact run_of_step_self ((step_of_fetch hs hfetch).trans (hself ▸ exec_of_taken_to hr ha)) k

/-- Settles O46: the jump changes the program counter only, and from its target nothing is fetched. -/
theorem jumpPastTheEndEndsTheRun : Obligations.JumpPastTheEndEndsTheRun := by
  intro s i a hs hf ha hr hpast
  have hend : (s.setPc a.toNat).fetch = none := State.fetch_eq_none.2 (.inr (Int.ofNat_le.2 hpast))
  exact ⟨_, _, (step_of_fetch hs hf).trans (exec_of_taken_to hr ha), rfl, hs, step_of_end hs hend, rfl, rfl, rfl,
    fun _ => rfl, fun _ => rfl, ⟨rfl, rfl⟩⟩

/-! ### The trace (R28) -/

/-- Settles O53: a step either changes the status only or is an instruction, which never reads the trace. -/
theorem traceGrowsAndFeedsNothingBack : Obligations.TraceGrowsAndFeedsNothingBack := by
  intro s t tr h
  obtain ⟨hs, ⟨hf, rfl⟩ | ⟨i, hf, hi⟩⟩ := step_cases h
  · exact ⟨[], by simp, by simp, (step_of_end (s := { s with trace := tr }) hs hf).trans (by simp [State.setStatus])⟩
  · obtain ⟨es, htr, hlen, hsame⟩ := exec_congr hi s.program s.status tr
    refine ⟨es, hlen, htr, (step_of_fetch (s := { s with trace := tr }) hs hf).trans (hsame.trans ?_)⟩
    rw [← exec_status hi, (exec_sameBuild hi).1]

/-! ### Immediate mode (R32) -/

/-- What an instruction does does not depend on the program. -/
theorem exec_congr_program {i : Instr} {s t : State} (h : exec i s = .next t) (p : List Instr) :
    exec i { s with program := p } = .next { t with program := p } := by
  obtain ⟨es, htr, -, hsame⟩ := exec_congr h p s.status s.trace
  rwa [← exec_status h, ← htr] at hsame

/-- Registers, memory and status after an instruction do not depend on the program counter. -/
theorem exec_congr_pc {i : Instr} {s t : State} (h : exec i s = .next t) (p : Int) :
    ∃ u, exec i { s with pc := p } = .next u ∧ u.regs = t.regs ∧ u.mem = t.mem ∧ u.status = t.status := by
  obtain ⟨f, hf, rfl, hexec⟩ := exec_agree (s := s) (s' := { s with pc := p }) rfl (fun _ _ => rfl) h
  refine ⟨_, hexec, ?_⟩
  cases hf <;> exact ⟨rfl, rfl, rfl⟩

theorem immediate_of_error {line : List Char} {e : DecodeError} {s : State} (hs : s.status = .running) (hp : s.program = [])
    (he : parse s.cfg.xlen line = .error e) : immediate line s = .next (s, some e) := by
  simp [immediate, hs, hp, he]

theorem immediate_of_program {line : List Char} {s : State} (hs : s.status = .running) (hp : s.program ≠ []) :
    immediate line s = .refused .notHostsMove := by
  simp [immediate, hs, hp]

/-- Settles O54: a line that decodes is `exec` of its instruction, which reads neither the program nor, but for the next one,
the program counter. -/
theorem immediateModeExecutesTheLine : Obligations.ImmediateModeExecutesTheLine := by
  refine fun s line hs => ⟨fun hp e he => immediate_of_error hs hp he, fun i t hi h => ⟨exec_congr_program h, fun hp => ?_⟩,
    immediate_of_program hs⟩
  refine ⟨immediate_of_ok hs hp hi h, fun p => ?_⟩
  obtain ⟨u, hu, hsame⟩ := exec_congr_pc h p
  exact ⟨u, immediate_of_ok (s := { s with pc := p }) hs hp hi hu, hsame⟩

end Sys2Proof.Machine
end

section
/-! The invariants of a run (spec 00_scope.md R9, 10_state.md R22, R28, R33, 70_reset_and_hazards.md R185): each holds at reset and
after a load, every instruction keeps the data and every step keeps all three, so a run ends in one of three ways. -/

namespace Sys2Proof.Machine

/-! ### Data (R9, R20, R25) -/

/-- The value an instruction writes is in range, wherever the sources are. -/
theorem resultOf_inRange {s : State} {i : Instr} (hn : 2 ≤ s.cfg.xlen) (hregs : ∀ r, InRange s.cfg.xlen (s.getReg r))
    (hw : i.wellFormed s.cfg.xlen = true) (hz : ¬ DividesByZero s i) : InRange s.cfg.xlen (resultOf s i) := by
  cases i with
  | load d v => exact of_decide_eq_true hw
  | add | sub | mul | div => exact wrap_inRange _ _
  | rem d a b => exact aluRem_inRange s.cfg _ hz (hregs b)
  | and | or | xor | shl | not => exact signed_inRange _
  | shr => exact aluShr_inRange s.cfg _ _
  | gt | lt | gte | lte | eq | neq => exact truth_inRange hn _
  | _ => exact zero_inRange

section
variable {s : State} (h : s.DataOk)
include h

theorem State.DataOk.readMem_inRange (a : Addr) : InRange s.cfg.xlen (s.readMem a) := by
  have hread (m : Memory) (hm : ∀ c ∈ m, InRange s.cfg.xlen c.2) : InRange s.cfg.xlen (m.read a.toNat) := by
    induction m with
    | nil => exact zero_inRange
    | cons c m ih =>
      obtain ⟨hc, hm⟩ := List.forall_mem_cons.1 hm
      rw [Memory.read]
      split
      · exact hc
      · exact ih hm
  exact hread s.mem h.cells

theorem State.DataOk.setReg {d : Reg} {v : Int} (hv : InRange s.cfg.xlen v) : (s.setReg d v).DataOk := by
  refine { h with regs := fun r => ?_ }
  by_cases hr : r = d
  · subst hr
    rwa [State.getReg_setReg_same]
  · rw [State.getReg_setReg_other s v hr]
    exact h.regs r

theorem State.DataOk.writeMem (a : Addr) {v : Int} (hv : InRange s.cfg.xlen v) : (s.writeMem a v).DataOk := by
  refine { h with canonical := Memory.write_wf h.canonical (Addr.toNat_lt_ncell a) v, cells := fun c hc => ?_ }
  obtain rfl | hc := Memory.mem_write hc
  · exact hv
  · exact h.cells c hc

theorem State.DataOk.emit {e : Event} (he : e.InRange s.cfg.xlen) : (s.emit e).DataOk := by
  refine { h with events := fun x hx => ?_ }
  obtain hx | hx := List.mem_append.1 hx
  · exact h.events x hx
  · obtain rfl := List.mem_singleton.1 hx
    exact he

theorem State.DataOk.setPc (p : Int) : (s.setPc p).DataOk := { h with }

theorem State.DataOk.setStatus (st : RunStatus) : (s.setStatus st).DataOk := { h with }

/-- Every instruction keeps the data invariant. -/
theorem State.DataOk.exec {i : Instr} {t : State} (hexec : exec i s = .next t) : t.DataOk := by
  obtain ⟨d, -, hw, hz, -, rfl⟩ | ⟨-, -, rfl⟩ | ⟨r, a, -, -, rfl⟩ | ⟨a, -, -, rfl⟩ | ⟨-, -, rfl⟩ | ⟨r, -, -, rfl⟩ |
    ⟨a, -, -, rfl⟩ | ⟨-, -, rfl⟩ := exec_cases hexec
  · exact (h.setReg (resultOf_inRange (le_trans (by decide) h.width) h.regs hw hz)).setPc _
  · exact (h.emit (e := .fault _ _) trivial).setStatus _
  · exact (h.writeMem a (h.regs r)).setPc _
  · exact h.setPc _
  · exact h.setPc _
  · exact (h.emit (e := .showReg r _) (h.regs r)).setPc _
  · exact (h.emit (e := .showMem a _) (h.readMem_inRange a)).setPc _
  · exact h.setStatus _

theorem State.DataOk.step {t : State} (hstep : step s = .next t) : t.DataOk := by
  obtain ⟨-, ⟨-, rfl⟩ | ⟨i, -, hi⟩⟩ := step_cases hstep
  · exact h.setStatus _
  · exact h.exec hi

end

/-- Settles O55: every effect of an instruction keeps the data invariant. -/
theorem stepKeepsTheDataInvariant : Obligations.StepKeepsTheDataInvariant := fun _ _ h hstep => h.step hstep

/-- Settles O58: a line changes nothing or is one instruction. -/
theorem immediateModeKeepsTheDataInvariant : Obligations.ImmediateModeKeepsTheDataInvariant := by
  intro s t line e h hline
  obtain ⟨-, -, ⟨x, -, rfl, -⟩ | ⟨i, -, hi, -⟩⟩ := immediate_cases hline
  · exact h
  · exact h.exec hi

/-- A running core steps: what it fetches is well-formed, and a well-formed instruction gives a next state. -/
theorem State.DataOk.exists_step {s : State} (h : s.DataOk) (hs : s.status = .running) : ∃ t, Machine.step s = .next t := by
  cases hf : s.fetch with
  | none => exact ⟨_, step_of_end hs hf⟩
  | some i =>
    obtain ⟨t, ht⟩ := exec_completes (h.program i (State.fetch_mem hf))
    exact ⟨t, (step_of_fetch hs hf).trans ht⟩

/-- Settles O59: the data invariant holds of the instruction fetched. -/
theorem runningCoreAlwaysSteps : Obligations.RunningCoreAlwaysSteps := fun _ h hs => h.exists_step hs

/-! ### The program counter (R22) -/

/-- The program counter an instruction leaves: the same, the next one, or an address. -/
theorem exec_pc_cases {i : Instr} {s t : State} (h : exec i s = .next t) :
    t.pc = s.pc ∨ t.pc = s.pc + 1 ∨ ∃ a : Addr, t.pc = a.toNat := by
  obtain ⟨d, -, -, -, -, rfl⟩ | ⟨-, -, rfl⟩ | ⟨r, a, -, -, rfl⟩ | ⟨a, -, -, rfl⟩ | ⟨-, -, rfl⟩ | ⟨r, -, -, rfl⟩ |
    ⟨a, -, -, rfl⟩ | ⟨-, -, rfl⟩ := exec_cases h
  case inr.inl | inr.inr.inr.inr.inr.inr.inr => exact .inl rfl
  case inr.inr.inr.inl => exact .inr (.inr ⟨a, rfl⟩)
  all_goals exact .inr (.inl rfl)

theorem State.PcOk.step {s t : State} (h : s.PcOk) (hstep : step s = .next t) : t.PcOk := by
  obtain ⟨hlow, hhigh, hbound⟩ := h
  obtain ⟨hprog, hcfg⟩ := step_sameBuild hstep
  have hlen : t.proglen = s.proglen := congrArg List.length hprog
  obtain ⟨-, ⟨-, rfl⟩ | ⟨i, hf, hi⟩⟩ := step_cases hstep
  · exact ⟨hlow, hhigh, hbound⟩
  · have hlt := State.fetch_lt hf
    have hpc : 0 ≤ t.pc ∧ t.pc ≤ max (s.proglen : Int) 255 := by
      obtain hpc | hpc | ⟨a, hpc⟩ := exec_pc_cases hi
      · omega
      · omega
      · have haddr : a.toNat < 256 := a.isLt
        omega
    exact ⟨hpc.1, hlen ▸ hpc.2, by rwa [hlen, hcfg]⟩

/-- The bounds lie in the range of a width that can be built, so the program counter has an `XLEN`-bit pattern (D13). -/
theorem State.PcOk.pc_inRange {s : State} (h : s.PcOk) (hc : s.cfg.WellFormed) : InRange s.cfg.xlen s.pc := by
  obtain ⟨hlow, hhigh, hbound⟩ := h
  have h256 : 2 ^ 8 ≤ 2 ^ (s.cfg.xlen - 1) := Nat.pow_le_pow_right (by decide) (Nat.le_sub_one_of_lt hc)
  have hcast : ((2 ^ (s.cfg.xlen - 1) : Nat) : Int) = 2 ^ (s.cfg.xlen - 1) := by push_cast; rfl
  simp only [InRange, minValue, maxValue]
  omega

/-- Settles O56: a step leaves the program counter, moves it on from an index of the program, or loads an address. -/
theorem stepKeepsTheProgramCounterInBounds : Obligations.StepKeepsTheProgramCounterInBounds := fun _ _ h hstep =>
  ⟨h.step hstep, fun hc => (h.step hstep).pc_inRange ((step_sameBuild hstep).2 ▸ hc)⟩

/-! ### The fault record (R28, R160) -/

theorem State.faultOk_iff {s : State} (hs : ∀ c, s.status ≠ .faulted c) : s.FaultOk ↔ ∀ d p, Event.fault d p ∉ s.trace := by
  unfold State.FaultOk
  split
  · next c hc => exact absurd hc (hs c)
  all_goals exact Iff.rfl

/-- A running core has no fault event, and a step adds one exactly when it faults. -/
theorem State.FaultOk.step {s t : State} (h : s.FaultOk) (hstep : Machine.step s = .next t) : t.FaultOk := by
  obtain ⟨hs, hstep⟩ := step_cases hstep
  have hrun : ∀ c, s.status ≠ .faulted c := by simp [hs]
  have hnone := (State.faultOk_iff hrun).1 h
  have hsame (u : State) (hu : ∀ c, u.status ≠ .faulted c) (htr : u.trace = s.trace) : u.FaultOk :=
    (State.faultOk_iff hu).2 (htr ▸ hnone)
  have hshow (u : State) (e : Event) (hu : u.status = s.status) (htr : u.trace = s.trace ++ [e])
      (he : ∀ d p, Event.fault d p ≠ e) : u.FaultOk := by
    rw [State.faultOk_iff (hu ▸ hrun), htr]
    simpa using fun d p => ⟨hnone d p, he d p⟩
  obtain ⟨-, rfl⟩ | ⟨i, -, hi⟩ := hstep
  · exact hsame _ (by simp) rfl
  obtain ⟨d, -, -, -, -, rfl⟩ | ⟨-, -, rfl⟩ | ⟨r, a, -, -, rfl⟩ | ⟨a, -, -, rfl⟩ | ⟨-, -, rfl⟩ | ⟨r, -, -, rfl⟩ |
    ⟨a, -, -, rfl⟩ | ⟨-, -, rfl⟩ := exec_cases hi
  · exact hsame _ hrun rfl
  · exact ⟨s.trace, rfl, hnone⟩
  · exact hsame _ hrun rfl
  · exact hsame _ hrun rfl
  · exact hsame _ hrun rfl
  · exact hshow _ _ rfl rfl (by simp)
  · exact hshow _ _ rfl rfl (by simp)
  · exact hsame _ (by simp) rfl

/-- Settles O57: the step lemma of the fault record. -/
theorem stepKeepsTheFaultRecord : Obligations.StepKeepsTheFaultRecord := fun _ _ h hstep => h.step hstep

/-! ### Runs (R185) -/

theorem State.Inv.step {s t : State} (h : s.Inv) (hstep : Machine.step s = .next t) : t.Inv :=
  ⟨h.data.step hstep, h.pc.step hstep, h.fault.step hstep⟩

/-- The ways a core can have stopped. -/
theorem RunStatus.stopped_cases {st : RunStatus} (h : st ≠ .running) :
    st = .halted ∨ st = .faulted .divideByZero ∨ st = .ended := by
  cases st with
  | running => exact absurd rfl h
  | halted => exact .inl rfl
  | faulted c => cases c; exact .inr (.inl rfl)
  | ended => exact .inr (.inr rfl)

/-- Settles O60, by induction on the number of steps: a running core steps and keeps the invariant, a stopped one has ended in
one of the three ways. -/
theorem runsEndInThreeWaysOnly : Obligations.RunsEndInThreeWaysOnly := by
  intro k
  induction k with
  | zero => exact fun s h => .inl ⟨s, run_zero s, h⟩
  | succ k ih =>
    intro s h
    by_cases hs : s.status = .running
    · obtain ⟨t, ht⟩ := h.data.exists_step hs
      rw [run_succ_next k ht]
      exact ih t (h.step ht)
    · exact .inr ⟨s.status, run_succ_fault k (step_of_stopped hs), RunStatus.stopped_cases hs⟩

/-! ### Reset and load (R33, R181) -/

/-- Settles O21: a core just created holds these values. -/
theorem resetStateIsAllZero : Obligations.ResetStateIsAllZero :=
  ⟨fun _ => ⟨fun r => by cases r <;> rfl, fun _ => rfl, rfl, rfl, rfl, rfl⟩, rfl⟩

/-- A core just created meets the invariant with every program that is well-formed and short enough. -/
theorem State.create_inv {c : Config} {p : List Instr} (hc : c.WellFormed) (hp : ∀ i ∈ p, i.wellFormed c.xlen = true)
    (hlen : p.length < 2 ^ (c.xlen - 1)) : ({ State.create c with program := p } : State).Inv where
  data := ⟨hc, fun r => by cases r <;> exact zero_inRange, rfl, nofun, hp, nofun⟩
  pc := ⟨le_rfl, le_max_of_le_right (Int.natCast_nonneg 255), hlen⟩
  fault := fun _ _ => List.not_mem_nil

/-- Settles O22: a core just created has the empty program. -/
theorem invariantHoldsAtReset : Obligations.InvariantHoldsAtReset :=
  have hcreate (c : Config) (hc : c.WellFormed) : (State.create c).Inv :=
    State.create_inv (p := []) hc nofun (Nat.two_pow_pos _)
  ⟨hcreate, hcreate Config.standard (by decide)⟩

theorem State.create_fresh (c : Config) : (State.create c).fresh = true := decide_eq_true rfl

theorem loadProgram_of_fresh {p : List Instr} {s : State} (hs : s.fresh = true) (hp : ∀ i ∈ p, i.wellFormed s.cfg.xlen = true)
    (hlen : p.length < 2 ^ (s.cfg.xlen - 1)) : loadProgram p s = .next { s with program := p } := by
  have hall : p.all (fun i => i.wellFormed s.cfg.xlen) = true := List.all_eq_true.2 hp
  rw [loadProgram, hs, hall, if_neg nofun, if_neg nofun, if_neg (not_le.2 hlen)]

/-- Settles O20: a program text delivers well-formed instructions, which attach to a core just created. -/
theorem loadedCoreMeetsTheInvariant : Obligations.LoadedCoreMeetsTheInvariant := by
  intro c lines p hc hparse hlen
  have hp : ∀ i ∈ p, i.wellFormed c.xlen = true := fun i hi =>
    have ⟨l, _, hl⟩ := exists_line_of_mem_program hparse hi
    parse_delivers l i hl
  refine ⟨_, ?_, rfl, State.create_inv hc hp hlen⟩
  rw [loadText, show parseProgram (State.create c).cfg.xlen lines = .ok p from hparse, loadDecoded,
    loadProgram_of_fresh (State.create_fresh c) hp hlen]

end Sys2Proof.Machine
end

section
/-! Division under either rounding and the shifts (spec 41_arithmetic.md R116, 42_logic_shift.md R127, 92_eei_decisions.md D3 to D5,
93_implementation_defined.md U1, U2, U4): shifting a pattern is arithmetic on its reading, by the count its policy gives. -/

namespace Sys2Proof.Machine

/-! ### Division that floors (D5) -/

theorem aluDiv_floor {c : Config} (hc : c.divRounding = .floor) (x y : Int) : aluDiv c x y = wrap c.xlen (x.fdiv y) := by
  simp only [aluDiv, quotient, hc]

theorem aluRem_floor {c : Config} (hc : c.divRounding = .floor) (x y : Int) : aluRem c x y = x.fmod y := by
  simp only [aluRem_eq, hc]

/-- A floored remainder is zero or has the divisor's sign. -/
theorem flooredDivision_fdiv_fmod (x : Int) {y : Int} (hy : y ≠ 0) : FlooredDivision x y (x.fdiv y) (x.fmod y) := by
  refine ⟨(Int.fdiv_mul_add_fmod x y).symm, natAbs_fmod_lt x hy, fun hr => ?_, fun hr => ?_⟩
  · by_contra hneg
    have h := Int.fmod_nonneg_of_pos (-x) (b := -y) (by omega)
    rw [Int.neg_fmod_neg] at h
    omega
  · by_contra hpos
    have h := Int.fmod_nonneg_of_pos x (b := y) (by omega)
    omega

/-- Settles O36: quotient and remainder are `Int.fdiv` and `Int.fmod`. -/
theorem divisionFloors : Obligations.DivisionFloors := fun s _ _ _ hc hb =>
  ⟨_, _, flooredDivision_fdiv_fmod _ hb, completesInto_of_dest rfl rfl hb (aluRem_floor hc _ _),
    completesInto_of_dest rfl rfl hb (by rw [resultOf, aluDiv_floor hc]; exact isWrap_wrap s.cfg.xlen _)⟩

/-! ### Division of non-negative operands (U4) -/

section
variable {x y : Int} (hx : 0 ≤ x) (hy : 0 < y)
include hx hy

theorem quotient_of_nonneg (c : Config) : quotient c x y = x / y := by
  unfold quotient
  split
  · exact Int.tdiv_eq_ediv_of_nonneg hx
  · exact Int.fdiv_eq_ediv_of_nonneg x hy.le

theorem aluRem_of_nonneg (c : Config) : aluRem c x y = x % y := by
  rw [aluRem, quotient_of_nonneg hx hy, Int.emod_def, mul_comm]

theorem ediv_inRange {n : Nat} (hr : InRange n x) : InRange n (x / y) := by
  have h0 : 0 ≤ x / y := Int.ediv_nonneg hx hy.le
  have hle : x / y ≤ x := Int.ediv_le_self y hx
  obtain ⟨-, hmax⟩ := hr
  exact ⟨le_trans zero_inRange.1 h0, le_trans hle hmax⟩

end

/-- Settles O37: at non-negative operands either rounding gives the floor of the quotient, which needs no wrapping. -/
theorem nonNegativeDivisionIgnoresTheRounding : Obligations.NonNegativeDivisionIgnoresTheRounding := by
  intro s d a b hn ha ha0 hb
  refine ⟨completesInto_of_dest rfl rfl hb.ne' ?_, completesInto_of_dest rfl rfl hb.ne' (aluRem_of_nonneg ha0 hb s.cfg)⟩
  rw [resultOf, aluDiv, quotient_of_nonneg ha0 hb, wrap_of_inRange hn (ediv_inRange ha0 hb ha)]

/-! ### Shifted patterns (R127) -/

theorem toNat_pattern (n : Nat) (x : Int) : ((pattern n x).toNat : Int) = x % 2 ^ n := by
  rw [pattern, BitVec.toNat_ofInt, Int.toNat_of_nonneg (Int.emod_nonneg _ (by positivity))]
  push_cast
  rfl

theorem signed_eq_wrap_toNat {n : Nat} (v : BitVec n) : signed v = wrap n (v.toNat : Int) := by
  rw [wrap, pattern, BitVec.ofInt_natCast, BitVec.ofNat_toNat, BitVec.setWidth_eq]

theorem pattern_two_pow (n k : Nat) : pattern n (2 ^ k) = BitVec.twoPow n k := by
  rw [pattern, show (2 : Int) ^ k = ((2 ^ k : Nat) : Int) by push_cast; rfl, BitVec.ofInt_natCast]
  exact BitVec.eq_of_toNat_eq (by rw [BitVec.toNat_ofNat, BitVec.toNat_twoPow])

theorem signed_shiftLeft_pattern (n : Nat) (x : Int) (k : Nat) : signed (pattern n x <<< k) = wrap n (x * 2 ^ k) := by
  rw [wrap, pattern, pattern, BitVec.ofInt_mul, ← pattern, ← pattern, pattern_two_pow, BitVec.shiftLeft_eq_mul_twoPow]

theorem signed_sshiftRight_pattern {n : Nat} {x : Int} (hn : 0 < n) (hx : InRange n x) (k : Nat) :
    signed ((pattern n x).sshiftRight k) = x / 2 ^ k := by
  rw [signed, BitVec.toInt_sshiftRight, Int.shiftRight_eq_div_pow, ← signed, signed_pattern hn hx]
  push_cast
  rfl

theorem signed_ushiftRight_pattern (n : Nat) (x : Int) (k : Nat) :
    signed (pattern n x >>> k) = wrap n (x % 2 ^ n / 2 ^ k) := by
  rw [signed_eq_wrap_toNat, BitVec.toNat_ushiftRight, Nat.shiftRight_eq_div_pow]
  push_cast
  rw [toNat_pattern]

/-! ### The shift instructions' results, by their count -/

theorem aluShl_eq (c : Config) (x y : Int) : aluShl c x y = wrap c.xlen (x * 2 ^ shiftCount c y) :=
  signed_shiftLeft_pattern c.xlen x (shiftCount c y)

section
variable {c : Config} {x : Int}

theorem aluShr_arithmetic (hc : c.shrKind = .arithmetic) (hn : 0 < c.xlen) (hx : InRange c.xlen x) (y : Int) :
    aluShr c x y = x / 2 ^ shiftCount c y := by
  rw [aluShr, hc]
  exact signed_sshiftRight_pattern hn hx _

theorem aluShr_logical (hc : c.shrKind = .logical) (y : Int) :
    aluShr c x y = wrap c.xlen (x % 2 ^ c.xlen / 2 ^ shiftCount c y) := by
  rw [aluShr, hc]
  exact signed_ushiftRight_pattern c.xlen x _

/-- A value that is not negative is its own unsigned reading. -/
theorem emod_two_pow_of_nonneg (hn : 0 < c.xlen) (hx : InRange c.xlen x) (hx0 : 0 ≤ x) : x % 2 ^ c.xlen = x := by
  obtain ⟨-, hmax⟩ := hx
  simp only [maxValue] at hmax
  have hsplit := two_pow_split hn
  exact Int.emod_eq_of_lt hx0 (by omega)

/-- For a value that is not negative it makes no difference what enters at the left (U2). -/
theorem aluShr_of_nonneg (hn : 0 < c.xlen) (hx : InRange c.xlen x) (hx0 : 0 ≤ x) (y : Int) :
    aluShr c x y = x / 2 ^ shiftCount c y := by
  cases hc : c.shrKind with
  | arithmetic => exact aluShr_arithmetic hc hn hx y
  | logical =>
    rw [aluShr_logical hc, emod_two_pow_of_nonneg hn hx hx0, wrap_of_inRange hn (ediv_inRange hx0 (by positivity) hx)]

end

/-! ### The shift count (R127, U1, D3) -/

theorem unsigned_eq (n : Nat) (x : Int) : unsigned n x = (x % 2 ^ n).toNat := by
  rw [← toNat_pattern, Int.toNat_natCast, unsigned]

theorem shiftCount_modXlen {c : Config} (hc : c.shiftAmount = .modXlen) (y : Int) :
    shiftCount c y = (y % 2 ^ c.xlen).toNat % c.xlen := by
  rw [shiftCount, hc, ← unsigned_eq]

/-- No policy changes an amount in `0 .. XLEN-1`. -/
theorem shiftCount_of_lt {c : Config} {y : Int} (h0 : 0 ≤ y) (hlt : y < c.xlen) : shiftCount c y = y.toNat := by
  have hpow : c.xlen < 2 ^ c.xlen := Nat.lt_two_pow_self
  have hunsigned : unsigned c.xlen y = y.toNat := by
    rw [unsigned_eq, Int.emod_eq_of_lt h0 (lt_trans hlt (by exact_mod_cast hpow))]
  unfold shiftCount
  split
  · rw [hunsigned, Nat.mod_eq_of_lt (by omega)]
  · rw [hunsigned, Nat.min_eq_left (by omega)]

theorem shiftCount_saturated {c : Config} {y : Int} (hc : c.shiftAmount = .saturate) (hy : (c.xlen : Int) ≤ y % 2 ^ c.xlen) :
    shiftCount c y = c.xlen := by
  rw [shiftCount, hc]
  exact Nat.min_eq_right (by rw [unsigned_eq]; omega)

/-! ### The shift laws -/

/-- Settles O40: a shift's result by its count, and the count by the policy. -/
theorem shiftLaws : Obligations.ShiftLaws := by
  intro s d a b hn ha _ n
  have hmod (hm : s.cfg.shiftAmount = .modXlen) : shiftCount s.cfg (s.getReg b) = n := shiftCount_modXlen hm _
  have hshl : IsWrap s.cfg.xlen (s.getReg a * 2 ^ shiftCount s.cfg (s.getReg b)) (aluShl s.cfg (s.getReg a) (s.getReg b)) :=
    aluShl_eq s.cfg _ _ ▸ isWrap_wrap s.cfg.xlen _
  refine ⟨fun hm => ?_, fun hm hk => ?_, fun h0 hlt => ?_, completesInto_of_dest rfl rfl id (signed_inRange _),
    completesInto_of_dest rfl rfl id (aluShr_inRange s.cfg _ _)⟩
  · exact completesInto_of_dest rfl rfl id (hmod hm ▸ hshl)
  · exact completesInto_of_dest rfl rfl id (hmod hm ▸ aluShr_arithmetic hk hn ha _)
  · have hcount := shiftCount_of_lt h0 hlt
    refine ⟨completesInto_of_dest rfl rfl id (hcount ▸ hshl), fun hk => ?_, fun hk => ?_, fun ha0 => ?_⟩
    · exact completesInto_of_dest rfl rfl id (hcount ▸ aluShr_arithmetic hk hn ha _)
    · refine completesInto_of_dest rfl rfl id ?_
      rw [resultOf, aluShr_logical hk, hcount]
      exact isWrap_wrap _ _
    · exact completesInto_of_dest rfl rfl id (hcount ▸ aluShr_of_nonneg hn ha ha0 _)

/-- Settles O41: the same for zeros entering at the left. -/
theorem logicalShiftRightFillsWithZeros : Obligations.LogicalShiftRightFillsWithZeros := by
  intro s d a b _ hk
  have hshr : IsWrap s.cfg.xlen (s.getReg a % 2 ^ s.cfg.xlen / 2 ^ shiftCount s.cfg (s.getReg b))
      (aluShr s.cfg (s.getReg a) (s.getReg b)) := aluShr_logical hk _ ▸ isWrap_wrap s.cfg.xlen _
  exact ⟨fun hm => completesInto_of_dest rfl rfl id (shiftCount_modXlen hm _ ▸ hshr),
    fun h0 hlt => completesInto_of_dest rfl rfl id (shiftCount_of_lt h0 hlt ▸ hshr)⟩

/-- Shifted right by its whole width, a value leaves its sign. -/
theorem ediv_two_pow_of_inRange {n : Nat} {x : Int} (hn : 0 < n) (hx : InRange n x) :
    x / 2 ^ n = if x < 0 then -1 else 0 := by
  obtain ⟨hmin, hmax⟩ := hx
  simp only [minValue, maxValue] at hmin hmax
  have hsplit := two_pow_split hn
  have hpos : (0 : Int) < 2 ^ (n - 1) := by positivity
  split
  · rw [Int.ediv_eq_neg_one_of_neg_of_le (by omega) (by omega)]
  · exact Int.ediv_eq_zero_of_lt (by omega) (by omega)

/-- Settles O42: the count is `XLEN`, and a shift by it leaves nothing of the value but, for the arithmetic kind, its sign. -/
theorem saturatingShiftsMoveEveryBitOut : Obligations.SaturatingShiftsMoveEveryBitOut := by
  intro s d a b hn ha hm hb
  have hcount := shiftCount_saturated hm hb
  have hzero : wrap s.cfg.xlen 0 = 0 := wrap_of_inRange hn zero_inRange
  refine ⟨completesInto_of_dest rfl rfl id ?_, completesInto_of_dest rfl rfl id ?_⟩
  · rw [resultOf, aluShl_eq, hcount, wrap_eq_bmod]
    exact_mod_cast Int.mul_bmod_left (s.getReg a) (2 ^ s.cfg.xlen)
  · cases hk : s.cfg.shrKind with
    | arithmetic =>
      rw [resultOf, aluShr_arithmetic hk hn ha, hcount, ediv_two_pow_of_inRange hn ha]
      simp
    | logical =>
      rw [resultOf, aluShr_logical hk, hcount, Int.ediv_eq_zero_of_lt (Int.emod_nonneg _ (by positivity))
        (Int.emod_lt_of_pos _ (by positivity)), hzero]
      simp

end Sys2Proof.Machine
end
